-- ==== Sys2Proof/Word.lean ====
section
/-! DEFINITION. The word types of the block: the byte operand, the 16-bit command word, the 32-bit result and the 40-bit response word. -/

namespace Sys2Proof

/-- A byte operand `imm8` (20_memory.md R57). -/
abbrev Byte := BitVec 8

/-- A command word `cmd[15:0]`, bit 0 the least significant (30_encoding.md R70, 00_scope.md R7). -/
abbrev CmdWord := BitVec 16

/-- The `data` field of a response and the width of the CRC register (20_memory.md R57, 10_state.md R21). -/
abbrev DataWord := BitVec 32

/-- A response word `rsp[39:0]` (30_encoding.md R80). -/
abbrev RspWord := BitVec 40

end Sys2Proof
end

