-- ==== Sys2Proof/Syntax.lean ====
section
/-! DEFINITION. The ten commands of OOCA-1, one constructor per row of spec/opcode_table.json (30_encoding.md R74). -/

namespace Sys2Proof

/-- A command with its operands (30_encoding.md R72, R74). -/
inductive Instr where
  /-- `NOP` (43_system.md R151). -/
  | nop
  /-- `CRC_INIT` (40_crc.md R103). -/
  | crcInit
  /-- `CRC_BYTE b` (40_crc.md R104). -/
  | crcByte (b : Byte)
  /-- `TOC_LD b` (41_toc.md R117). -/
  | tocLd (b : Byte)
  /-- `FCB_LD f` (41_toc.md R118). -/
  | fcbLd (f : Byte)
  /-- `PKT sd`, `sd` true for a self-delimited packet (42_accumulator.md R134). -/
  | pkt (sd : Bool)
  /-- `FRM` (42_accumulator.md R136). -/
  | frm
  /-- `ACC_CLR` (42_accumulator.md R138). -/
  | accClr
  /-- `RD r`, `r` the 4-bit register index, of which 0 to 11 exist (43_system.md R152). -/
  | rd (r : BitVec 4)
  /-- `SRST` (43_system.md R153). -/
  | srst
  deriving DecidableEq, Repr

end Sys2Proof
end

