-- ==== Sys2Proof/WellFormed.lean ====
section
/-! DEFINITION. Which terms of Instr stand for a command: the one check is the constraint of the table's RD row. -/

namespace Sys2Proof

/-- The index of an existing register: 0 to 11 (10_state.md R30). -/
def regIndexOk (r : BitVec 4) : Bool := decide (r.toNat ≤ 11)

/-- A command as the opcode table admits it: `RD` needs `r ≤ 11`, every other operand takes all its values
(30_encoding.md R74). -/
def Instr.wf : Instr → Bool
  | .nop => true
  | .crcInit => true
  | .crcByte _ => true
  | .tocLd _ => true
  | .fcbLd _ => true
  | .pkt _ => true
  | .frm => true
  | .accClr => true
  | .rd r => regIndexOk r
  | .srst => true

end Sys2Proof
end

