-- ==== Sys2Proof/Decode.lean ====
section
/-! DEFINITION. Decoding of command words, total, refusing by name (30_encoding.md R70 to R77), and the encoder written from the same table. -/

namespace Sys2Proof

/-- Why a word is illegal (30_encoding.md R75). Every reason raises the same ILLEGAL fault. -/
inductive IllegalWord where
  /-- Opcode 0xA to 0xF. -/
  | noSuchOpcode
  /-- A must-be-zero bit is 1. -/
  | reservedBits
  /-- `RD` with `r` 12 to 15. -/
  | noSuchRegister
  deriving DecidableEq, Repr

/-- What a word decodes to (30_encoding.md R73). -/
inductive Decoded where
  | command (i : Instr)
  | illegal (why : IllegalWord)
  deriving DecidableEq, Repr

/-- `op = cmd[15:12]` (30_encoding.md R70). -/
def opField (w : CmdWord) : BitVec 4 := w.extractLsb' 12 4

/-- `mod = cmd[11:8]` (30_encoding.md R70). -/
def modField (w : CmdWord) : BitVec 4 := w.extractLsb' 8 4

/-- `imm8 = cmd[7:0]` (30_encoding.md R70). -/
def immField (w : CmdWord) : Byte := w.extractLsb' 0 8

/-- Format N: `cmd[11:0]` must be zero (30_encoding.md R71). -/
def decodeN (w : CmdWord) (i : Instr) : Decoded :=
  if modField w = 0#4 ∧ immField w = 0#8 then .command i else .illegal .reservedBits

/-- Format B: `cmd[11:8]` must be zero, the operand is `imm8` (30_encoding.md R71, R72). -/
def decodeB (w : CmdWord) (i : Byte → Instr) : Decoded :=
  if modField w = 0#4 then .command (i (immField w)) else .illegal .reservedBits

/-- Format F: `cmd[11:9]` and `cmd[7:0]` must be zero, the operand is bit 8 (30_encoding.md R71, R72). -/
def decodeF (w : CmdWord) (i : Bool → Instr) : Decoded :=
  if (modField w).extractLsb' 1 3 = 0#3 ∧ immField w = 0#8 then .command (i ((modField w).getLsbD 0))
  else .illegal .reservedBits

/-- Format R: `cmd[7:0]` must be zero and the index `cmd[11:8]` must exist (30_encoding.md R71, R72, R73). -/
def decodeR (w : CmdWord) (i : BitVec 4 → Instr) : Decoded :=
  if immField w = 0#8 then
    if regIndexOk (modField w) then .command (i (modField w)) else .illegal .noSuchRegister
  else .illegal .reservedBits

/-- The decoder: opcode first, then the format's must-be-zero check, then the operands (30_encoding.md R73). -/
def decode (w : CmdWord) : Decoded :=
  match (opField w).toNat with
  | 0 => decodeN w .nop
  | 1 => decodeN w .crcInit
  | 2 => decodeB w .crcByte
  | 3 => decodeB w .tocLd
  | 4 => decodeB w .fcbLd
  | 5 => decodeF w .pkt
  | 6 => decodeN w .frm
  | 7 => decodeN w .accClr
  | 8 => decodeR w .rd
  | 9 => decodeN w .srst
  | _ => .illegal .noSuchOpcode

/-- The instruction of a decoded word, none where the word is illegal. -/
def Decoded.instr? : Decoded → Option Instr
  | .command i => some i
  | .illegal _ => none

/-- The command word with the given fields (30_encoding.md R70). -/
def cmdWord (op md : BitVec 4) (imm : Byte) : CmdWord := op ++ md ++ imm

/-- The opcode of a command (30_encoding.md R74, column `op`). -/
def Instr.opcode : Instr → BitVec 4
  | .nop => 0x0#4
  | .crcInit => 0x1#4
  | .crcByte _ => 0x2#4
  | .tocLd _ => 0x3#4
  | .fcbLd _ => 0x4#4
  | .pkt _ => 0x5#4
  | .frm => 0x6#4
  | .accClr => 0x7#4
  | .rd _ => 0x8#4
  | .srst => 0x9#4

/-- The modifier field of a command (30_encoding.md R70, R71). -/
def Instr.modifier : Instr → BitVec 4
  | .nop => 0#4
  | .crcInit => 0#4
  | .crcByte _ => 0#4
  | .tocLd _ => 0#4
  | .fcbLd _ => 0#4
  | .pkt sd => 0#3 ++ BitVec.ofBool sd
  | .frm => 0#4
  | .accClr => 0#4
  | .rd r => r
  | .srst => 0#4

/-- The byte field of a command (30_encoding.md R70, R71). -/
def Instr.imm8 : Instr → Byte
  | .nop => 0#8
  | .crcInit => 0#8
  | .crcByte b => b
  | .tocLd b => b
  | .fcbLd f => f
  | .pkt _ => 0#8
  | .frm => 0#8
  | .accClr => 0#8
  | .rd _ => 0#8
  | .srst => 0#8

/-- The word of a well-formed command (30_encoding.md R74). -/
def encode (i : Instr) : CmdWord := cmdWord i.opcode i.modifier i.imm8

/-- The command word of which the opcode table gives the bits `w` of its `nbits` bits: the bits above are 0. A
command is one 16-bit word presented whole on `cmd`, so no byte order enters (20_memory.md R57, R66; log 14). -/
def tableCmdWord (nbits w : Nat) : CmdWord := BitVec.ofNat 16 (w % 2 ^ nbits)

/-- The instruction the decoder reads from a word given as spec/opcode_table.json numbers its bits. -/
def decodeTableWord (nbits w : Nat) : Option Instr := (decode (tableCmdWord nbits w)).instr?

end Sys2Proof
end

