-- ==== Sys2Proof/Config.lean ====
section
/-! DEFINITION. The implementation parameters of 00_scope.md R6 that enter a computation, each with the value the spec fixes. The spec leaves none open, so nothing here is opaque. -/

namespace Sys2Proof.Config

/-- `POLY`, the generator polynomial (00_scope.md R6). -/
def poly : DataWord := 0x04C11DB7#32

/-- `CRC_INIT_VALUE`, what `CRC_INIT` writes (00_scope.md R6, 92_eei_decisions.md D5).
UNVERIFIED, unsafe: the spec's own decision, not a statement of its source (log 9). -/
def crcInitValue : DataWord := 0x00000000#32

/-- `CRC_XOROUT`, xored into the result when it is read: none (00_scope.md R6, 92_eei_decisions.md D5).
UNVERIFIED, unsafe: the spec's own decision, not a statement of its source (log 9). -/
def crcXorOut : DataWord := 0x00000000#32

/-- `BUDGET_US`: the accumulator emits at exactly this many microseconds (00_scope.md R6, 92_eei_decisions.md D32). -/
def budgetUs : Nat := 60000

end Sys2Proof.Config
end

