-- ==== Sys2Proof/Machine/State.lean ====
section
/-! DEFINITION. The state of the block as plain data: the registers of 10_state.md R20 and the two ports of 20_memory.md R66; the reset state; the reasons a machine step could stop. -/

namespace Sys2Proof.Machine

/-- The whole architectural state of the block, 70 bits (10_state.md R20). -/
structure Regs where
  /-- `CRC`, the running Ogg CRC-32 (R21). -/
  crc : BitVec 32
  /-- `TOC`, the last TOC byte loaded; holds a value only while `tocv` (R22). -/
  toc : BitVec 8
  /-- `TOCV`: `TOC` has been written since reset. -/
  tocv : Bool
  /-- `NFRAMES`, the frame count of the current packet; holds a value only while `nfv` (R23). -/
  nframes : BitVec 6
  /-- `NFV`: `NFRAMES` belongs to the current `TOC` (R23). -/
  nfv : Bool
  /-- `VBR`, bit 7 of the last control byte (R24). -/
  vbr : Bool
  /-- `PAD`, bit 6 of the last control byte (R24). -/
  pad : Bool
  /-- `ACC`, the running duration in microseconds (R25). -/
  acc : BitVec 17
  /-- `OVER`, sticky: the accumulated duration went above the budget (R28). -/
  overFlag : Bool
  /-- `ILL`, sticky: an illegal word was presented (R28). -/
  illFlag : Bool
  /-- `SEQ`, sticky: a command needed a register that holds no value (R28). -/
  seqFlag : Bool
  deriving DecidableEq, Repr

/-- The status of a response (30_encoding.md R81). -/
inductive Status where
  | ok
  | illegal
  | seq
  | faulted
  | overshoot
  deriving DecidableEq, Repr

/-- The event strobes of a response (30_encoding.md R82). -/
structure Events where
  /-- `EMIT`: emit the buffer as one 60 ms unit and clear it. -/
  emit : Bool
  /-- `APPEND_PKT`: append the whole packet to the buffer. -/
  appendPkt : Bool
  /-- `APPEND_FRM`: append `TOC1` and this frame's bytes to the buffer. -/
  appendFrm : Bool
  /-- `SPLIT`: nothing was accumulated, treat the packet frame by frame. -/
  split : Bool
  deriving DecidableEq, Repr

/-- A response, kept as its three fields (30_encoding.md R80). -/
structure Response where
  status : Status
  ev : Events
  data : BitVec 32
  deriving DecidableEq, Repr

/-- One move of the host on the block's inputs: a command word presented on `cmd`, or `rst` asserted between two
steps (20_memory.md R66, R67; 70_reset_and_hazards.md R190). -/
inductive PortMove where
  | command (w : BitVec 16)
  | hardReset
  deriving DecidableEq, Repr

/-- The machine: the block's registers and, the model's own, its two ports. -/
structure State where
  /-- The block's registers, all the state that persists (10_state.md R20). -/
  regs : Regs
  /-- The moves the host has yet to make, oldest first: the list of 20_memory.md R67.
  DESIGN CHOICE, safe: every host is some list (log 1). -/
  pending : List PortMove
  /-- The response port: what the last move produced, none after a hard reset (20_memory.md R66).
  DESIGN CHOICE, safe: no rule of the block reads it (log 2). -/
  rsp : Option Response
  deriving DecidableEq, Repr

/-- Why the machine could stop. It never does: every word in every state has a next state and a response
(93_implementation_defined.md section 1), and the block's own faults are responses after which the next command is
accepted as usual (60_exceptions.md R160). So this type has no constructor: nobody raises one. DEDUCED, safe (log 10). -/
inductive Fault where
  deriving DecidableEq, Repr

/-- Why the model could give an instruction no meaning. -/
inductive Refusal where
  /-- Raised only by an arm of exec that has no meaning yet; safe, since the step is refused. No arm raises it. -/
  | notModelled (mnemonic : String)
  deriving DecidableEq, Repr

/-- The reset values of the registers (10_state.md R35). The stored bits of `TOC`, `NFRAMES`, `VBR` and `PAD`, which
hold no value then, are the zeros that rule gives (log 5). -/
def Regs.reset : Regs where
  crc := 0x00000000#32
  toc := 0x00#8
  tocv := false
  nframes := 0#6
  nfv := false
  vbr := false
  pad := false
  acc := 0#17
  overFlag := false
  illFlag := false
  seqFlag := false

/-- The machine right after hard reset: no command presented yet, no response (10_state.md R35,
70_reset_and_hazards.md R190, R191; logs 1 and 2). -/
def State.reset : State where
  regs := Regs.reset
  pending := []
  rsp := none

/-- What stands next on the command port, with the state from which that move is taken. -/
inductive Fetched where
  /-- No move stands there. -/
  | idle
  /-- `rst`. -/
  | reset (s : State)
  /-- A word that does not decode. -/
  | illegal (s : State)
  /-- A command. -/
  | run (i : Instr) (s : State)
  deriving DecidableEq, Repr

/-- What a meaning answers. -/
abbrev Result := Host.Outcome State Fault Refusal

end Sys2Proof.Machine
end

