-- ==== Sys2Proof/Machine/Operands.lean ====
section
/-! DEFINITION. The fields of the TOC byte and of the control byte, the frame durations and counts (41_toc.md R111 to R116), and the register names of RD's index (10_state.md R30). -/

namespace Sys2Proof.Machine

/-- `CONFIG = TOC[7:3]` (41_toc.md R111). -/
def tocConfig (toc : Byte) : BitVec 5 := toc.extractLsb' 3 5

/-- `STEREO = TOC[2]` (41_toc.md R111). -/
def tocStereo (toc : Byte) : Bool := toc.getLsbD 2

/-- `CODE = TOC[1:0]` (41_toc.md R111). -/
def tocCode (toc : Byte) : BitVec 2 := toc.extractLsb' 0 2

/-- `TOC1 = TOC & 0xFC`, the single-frame TOC (41_toc.md R112). -/
def toc1 (toc : Byte) : Byte := toc &&& 0xFC#8

/-- `frame_us(config)`, the duration of one frame in microseconds (41_toc.md R113). -/
def frameUsOf (config : BitVec 5) : Nat :=
  if config.toNat < 12 then
    if config.toNat % 4 = 0 then 10000 else config.toNat % 4 * 20000
  else if config.toNat < 16 then 10000 * 2 ^ (config.toNat % 2)
  else 2500 * 2 ^ (config.toNat % 4)

/-- The frame count that codes 0, 1 and 2 fix (41_toc.md R114). -/
def fixedCount (code : BitVec 2) : BitVec 6 := if code = 0#2 then 1#6 else 2#6

/-- `count = f[5:0]` of the control byte (41_toc.md R115). -/
def fcbCount (f : Byte) : BitVec 6 := f.extractLsb' 0 6

/-- `pad = f[6]` (41_toc.md R115). -/
def fcbPad (f : Byte) : Bool := f.getLsbD 6

/-- `vbr = f[7]` (41_toc.md R115). -/
def fcbVbr (f : Byte) : Bool := f.getLsbD 7

/-- `FRAME_US` of the loaded TOC (41_toc.md R113). -/
def Regs.frameUs (r : Regs) : Nat := frameUsOf (tocConfig r.toc)

/-- `TOTAL_US = NFRAMES * FRAME_US` (41_toc.md R116). -/
def Regs.totalUs (r : Regs) : Nat := r.nframes.toNat * r.frameUs

/-- The checksum as it is read: `CRC` with `CRC_XOROUT` (00_scope.md R6, 40_crc.md R105). -/
def Regs.checksum (r : Regs) : DataWord := r.crc ^^^ Config.crcXorOut

/-- The registers `RD` can name (10_state.md R30). -/
inductive RegName where
  | status
  | crc
  | toc
  | config
  | stereo
  | code
  | toc1
  | frameUs
  | nframes
  | fcbf
  | totalUs
  | acc
  deriving DecidableEq, Repr

/-- The register of an index, none for 12 to 15 (10_state.md R30). -/
def regNameOf (r : BitVec 4) : Option RegName :=
  match r.toNat with
  | 0 => some .status
  | 1 => some .crc
  | 2 => some .toc
  | 3 => some .config
  | 4 => some .stereo
  | 5 => some .code
  | 6 => some .toc1
  | 7 => some .frameUs
  | 8 => some .nframes
  | 9 => some .fcbf
  | 10 => some .totalUs
  | 11 => some .acc
  | _ => none

end Sys2Proof.Machine
end

