-- ==== Sys2Proof/Machine/Flags.lean ====
section
/-! DEFINITION. The flags: which registers hold a value, the STATUS register, the sticky fault flags and the fault line. -/

namespace Sys2Proof.Machine

/-- `TOC` holds a value: the need of `RD 2` to `RD 7` and of `FRM` (10_state.md R30, 60_exceptions.md R163). -/
def Regs.hasToc (r : Regs) : Bool := r.tocv

/-- `NFRAMES` and `TOTAL_US` hold a value: the need of `RD 8`, `RD 10` and `PKT` (10_state.md R30). -/
def Regs.hasCount (r : Regs) : Bool := r.tocv && r.nfv

/-- A code-3 TOC is loaded: the need of `FCB_LD` (41_toc.md R118). -/
def Regs.wantsFcb (r : Regs) : Bool := r.tocv && tocCode r.toc == 3#2

/-- `VBR` and `PAD` hold a value: the need of `RD 9` (10_state.md R24, R30). -/
def Regs.hasFcb (r : Regs) : Bool := r.tocv && r.nfv && tocCode r.toc == 3#2

/-- The `STATUS` register: OVER, ILL, SEQ in bits 0 to 2, TOCV and NFV in bits 8 and 9, zeros elsewhere
(10_state.md R29). -/
def Regs.statusWord (r : Regs) : DataWord :=
  0#22 ++ BitVec.ofBool r.nfv ++ BitVec.ofBool r.tocv ++ 0#5 ++
    BitVec.ofBool r.seqFlag ++ BitVec.ofBool r.illFlag ++ BitVec.ofBool r.overFlag

/-- The four faults of the block (60_exceptions.md R162 to R165). -/
inductive BlockFault where
  | illegal
  | seq
  | faulted
  | overshoot
  deriving DecidableEq, Repr

/-- The status a fault responds with (60_exceptions.md R166). -/
def BlockFault.status : BlockFault → Status
  | .illegal => .illegal
  | .seq => .seq
  | .faulted => .faulted
  | .overshoot => .overshoot

/-- Set the sticky flag of a fault; FAULTED has none (60_exceptions.md R161, R166). -/
def Regs.recordFault (r : Regs) : BlockFault → Regs
  | .illegal => { r with illFlag := true }
  | .seq => { r with seqFlag := true }
  | .faulted => r
  | .overshoot => { r with overFlag := true }

/-- The `fault` output line equals `OVER` (60_exceptions.md R168; log 16). -/
def State.faultLine (s : State) : Bool := s.regs.overFlag

end Sys2Proof.Machine
end

