-- ==== Sys2Proof/Machine/Ops.lean ====
section
/-! DEFINITION. The operations every command is built from: taking the next move off the port, writing and reading registers, responding, raising a fault, resetting; and the 40-bit response word. -/

namespace Sys2Proof.Machine

/-! ### Events and the response word -/

/-- No event. -/
def evNone : Events := ⟨false, false, false, false⟩

/-- `APPEND_PKT`. -/
def evAppendPkt : Events := ⟨false, true, false, false⟩

/-- `APPEND_PKT | EMIT`. -/
def evAppendPktEmit : Events := ⟨true, true, false, false⟩

/-- `APPEND_FRM`. -/
def evAppendFrm : Events := ⟨false, false, true, false⟩

/-- `APPEND_FRM | EMIT`. -/
def evAppendFrmEmit : Events := ⟨true, false, true, false⟩

/-- `SPLIT`. -/
def evSplit : Events := ⟨false, false, false, true⟩

/-- The status codes 0 to 4 (30_encoding.md R81). -/
def Status.code : Status → BitVec 4
  | .ok => 0#4
  | .illegal => 1#4
  | .seq => 2#4
  | .faulted => 3#4
  | .overshoot => 4#4

/-- The event field: bit 0 EMIT, bit 1 APPEND_PKT, bit 2 APPEND_FRM, bit 3 SPLIT (30_encoding.md R82). -/
def Events.bits (e : Events) : BitVec 4 :=
  BitVec.ofBool e.split ++ BitVec.ofBool e.appendFrm ++ BitVec.ofBool e.appendPkt ++ BitVec.ofBool e.emit

/-- The response word `rsp[39:0]` (30_encoding.md R80). -/
def Response.word (q : Response) : RspWord := q.status.code ++ q.ev.bits ++ q.data

/-- The `rsp_valid` line (20_memory.md R66). -/
def State.rspValid (s : State) : Bool := s.rsp.isSome

/-! ### Writing registers -/

/-- `CRC <- v`. -/
def State.writeCrc (s : State) (v : BitVec 32) : State := { s with regs := { s.regs with crc := v } }

/-- `TOC <- b; TOCV <- 1`. -/
def State.writeToc (s : State) (b : Byte) : State := { s with regs := { s.regs with toc := b, tocv := true } }

/-- `NFRAMES <- n; NFV <- 1`. -/
def State.writeCount (s : State) (n : BitVec 6) : State :=
  { s with regs := { s.regs with nframes := n, nfv := true } }

/-- `NFV <- 0`: the stored bits of `NFRAMES` stay (41_toc.md R117; log 5). -/
def State.dropCount (s : State) : State := { s with regs := { s.regs with nfv := false } }

/-- `PAD <- p; VBR <- v`. -/
def State.writeFcbFlags (s : State) (p v : Bool) : State := { s with regs := { s.regs with pad := p, vbr := v } }

/-- `ACC <- trunc_17(v)` (42_accumulator.md R134, R136; log 6). -/
def State.writeAcc (s : State) (v : Nat) : State := { s with regs := { s.regs with acc := BitVec.ofNat 17 v } }

/-- Every register takes its reset value (10_state.md R35). -/
def State.resetRegs (s : State) : State := { s with regs := Regs.reset }

/-! ### Reading registers -/

/-- `Reg(r)`, zero-extended to 32 bits; none when the register holds no value (10_state.md R30, R31). -/
def Regs.read (r : Regs) : RegName → Option DataWord
  | .status => some r.statusWord
  | .crc => some r.checksum
  | .toc => if r.hasToc then some (r.toc.setWidth 32) else none
  | .config => if r.hasToc then some ((tocConfig r.toc).setWidth 32) else none
  | .stereo => if r.hasToc then some ((BitVec.ofBool (tocStereo r.toc)).setWidth 32) else none
  | .code => if r.hasToc then some ((tocCode r.toc).setWidth 32) else none
  | .toc1 => if r.hasToc then some ((Machine.toc1 r.toc).setWidth 32) else none
  | .frameUs => if r.hasToc then some (BitVec.ofNat 32 r.frameUs) else none
  | .nframes => if r.hasCount then some (r.nframes.setWidth 32) else none
  | .fcbf => if r.hasFcb then some ((BitVec.ofBool r.vbr ++ BitVec.ofBool r.pad).setWidth 32) else none
  | .totalUs => if r.hasCount then some (BitVec.ofNat 32 r.totalUs) else none
  | .acc => some (r.acc.setWidth 32)

/-! ### Responding, raising a fault, resetting -/

/-- `respond(status, ev, data)`: the command's one response, and its end (00_scope.md R8, 30_encoding.md R80). -/
def State.respond (s : State) (st : Status) (ev : Events) (d : DataWord) : Result :=
  .next { s with rsp := some ⟨st, ev, d⟩ }

/-- `raise F(data)`: the fault's sticky flag is set and the fault's status is the response; nothing is saved, no mode
changes, control goes nowhere, and the next command is accepted as usual. The one state change beyond a flag, OVERSHOOT's
`ACC <- s`, is written by `FRM` before it raises (60_exceptions.md R160, R161, R165, R170; 42_accumulator.md R136). -/
def State.raise (s : State) (f : BlockFault) (d : DataWord) : Result :=
  State.respond { s with regs := s.regs.recordFault f } f.status evNone d

/-- An illegal word raises ILLEGAL (30_encoding.md R75, 60_exceptions.md R162). -/
def illegalWord (s : State) : Result := s.raise .illegal 0#32

/-- Hard reset, a move of the host between two steps: the reset state, and no response (70_reset_and_hazards.md R190; log 4).
The host's later moves stand as they were. -/
def hardReset (s : State) : Result := .next { s.resetRegs with rsp := none }

/-- No move stands on the port: the block holds its state (00_scope.md R9, 60_exceptions.md R180; log 3). -/
def holdState (s : State) : Result := .next s

/-- Take the next move off the command port and decode it (20_memory.md R59, R67; 30_encoding.md R73). -/
def fetch (s : State) : Fetched :=
  match s.pending with
  | [] => .idle
  | .hardReset :: rest => .reset { s with pending := rest }
  | .command w :: rest =>
    match decode w with
    | .command i => .run i { s with pending := rest }
    | .illegal _ => .illegal { s with pending := rest }

/-- Present a command word as the host's very next move (log 1). -/
def State.present (s : State) (w : CmdWord) : State := { s with pending := .command w :: s.pending }

end Sys2Proof.Machine
end

