-- ==== Sys2Proof/Machine/Accumulator.lean ====
section
/-! DEFINITION. The duration accumulator's commands PKT, FRM and ACC_CLR (42_accumulator.md). Sums are exact naturals and are narrowed where they are stored (00_scope.md R7; log 6). -/

namespace Sys2Proof.Machine

/-- `PKT sd` presents the loaded packet and takes the path decision: the fast path when it is not self-delimited and
fits the budget, else the split path (42_accumulator.md R134). -/
def execPkt (sd : Bool) (s : State) : Result :=
  if s.regs.overFlag then s.raise .faulted 0#32
  else if s.regs.hasCount then
    let sum := s.regs.acc.toNat + s.regs.totalUs
    if sd = false ∧ sum ≤ Config.budgetUs then
      if sum = Config.budgetUs then (s.writeAcc 0).respond .ok evAppendPktEmit 0#32
      else (s.writeAcc sum).respond .ok evAppendPkt (BitVec.ofNat 32 sum)
    else s.respond .ok evSplit (s.regs.acc.setWidth 32)
  else s.raise .seq 0#32

/-- `FRM` accumulates one frame of the loaded TOC. Above the budget the counter has already advanced when the fault is
raised, and the response's data is `ACC` after the command (42_accumulator.md R136, 30_encoding.md R83). -/
def execFrm (s : State) : Result :=
  if s.regs.overFlag then s.raise .faulted 0#32
  else if s.regs.hasToc then
    let sum := s.regs.acc.toNat + s.regs.frameUs
    if sum < Config.budgetUs then (s.writeAcc sum).respond .ok evAppendFrm (BitVec.ofNat 32 sum)
    else if sum = Config.budgetUs then (s.writeAcc 0).respond .ok evAppendFrmEmit 0#32
    else
      let s' := s.writeAcc sum
      s'.raise .overshoot (s'.regs.acc.setWidth 32)
  else s.raise .seq 0#32

/-- `ACC_CLR` abandons the unit being accumulated (42_accumulator.md R138). -/
def execAccClr (s : State) : Result :=
  if s.regs.overFlag then s.raise .faulted 0#32
  else (s.writeAcc 0).respond .ok evNone 0#32

end Sys2Proof.Machine
end

