-- ==== Sys2Proof/Machine/Crc.lean ====
section
/-! DEFINITION. The CRC unit: the table function, the byte recurrence, the bit-serial form, and the commands CRC_INIT and CRC_BYTE (40_crc.md). -/

namespace Sys2Proof.Machine

/-- One shift of the divider: the bit shifted out decides whether the polynomial is xored in (40_crc.md R101). -/
def crcShift (r : BitVec 32) : BitVec 32 := if r.msb then (r <<< 1) ^^^ Config.poly else r <<< 1

/-- `n` shifts. -/
def crcShifts : Nat → BitVec 32 → BitVec 32
  | 0, r => r
  | n + 1, r => crcShifts n (crcShift r)

/-- The table function `T(i)`: the byte in bits 31:24, eight shifts (40_crc.md R101). -/
def crcTable (i : Byte) : BitVec 32 := crcShifts 8 (i.setWidth 32 <<< 24)

/-- `trunc_32(CRC << 8) xor T(CRC[31:24] xor b)` (40_crc.md R104). -/
def crcUpdate (crc : BitVec 32) (b : Byte) : BitVec 32 := (crc <<< 8) ^^^ crcTable (crc.extractLsb' 24 8 ^^^ b)

/-- `crc(s, c)`: the register after the bytes `s`, from `c` (40_crc.md R107). -/
def crcStream (bs : List Byte) (c : BitVec 32) : BitVec 32 := bs.foldl crcUpdate c

/-- One step of the one-bit divider, fed one bit (40_crc.md R102). -/
def crcSerialBit (crc : BitVec 32) (bit : Bool) : BitVec 32 :=
  if crc.msb ^^ bit then (crc <<< 1) ^^^ Config.poly else crc <<< 1

/-- The bits of a byte from bit 7 down to bit 0 (40_crc.md R102). -/
def bitsMsbFirst (b : Byte) : List Bool :=
  [b.getLsbD 7, b.getLsbD 6, b.getLsbD 5, b.getLsbD 4, b.getLsbD 3, b.getLsbD 2, b.getLsbD 1, b.getLsbD 0]

/-- The bit-serial form of `CRC_BYTE` (40_crc.md R102). -/
def crcSerial (crc : BitVec 32) (b : Byte) : BitVec 32 := (bitsMsbFirst b).foldl crcSerialBit crc

/-- `CRC_INIT` starts a new checksum (40_crc.md R103). -/
def execCrcInit (s : State) : Result :=
  let s' := s.writeCrc Config.crcInitValue
  s'.respond .ok evNone s'.regs.checksum

/-- `CRC_BYTE b` folds one byte into the checksum (40_crc.md R104). -/
def execCrcByte (b : Byte) (s : State) : Result :=
  let s' := s.writeCrc (crcUpdate s.regs.crc b)
  s'.respond .ok evNone s'.regs.checksum

end Sys2Proof.Machine
end

