-- ==== Sys2Proof/Machine/System.lean ====
section
/-! DEFINITION. The system commands NOP, RD and SRST (43_system.md). -/

namespace Sys2Proof.Machine

/-- `NOP` does nothing (43_system.md R151). -/
def execNop (s : State) : Result := s.respond .ok evNone 0#32

/-- `RD r` reads one register; SEQ when it holds no value (43_system.md R152). An index that does not exist, which no
word decodes to, is the illegal command that rule R75 makes it. DESIGN CHOICE, safe (log 7). -/
def execRd (r : BitVec 4) (s : State) : Result :=
  match regNameOf r with
  | none => illegalWord s
  | some n =>
    match s.regs.read n with
    | some v => s.respond .ok evNone v
    | none => s.raise .seq 0#32

/-- `SRST`: the reset state, with a response (43_system.md R153). -/
def execSrst (s : State) : Result := s.resetRegs.respond .ok evNone 0#32

end Sys2Proof.Machine
end

