-- ==== Sys2Proof/Machine/Toc.lean ====
section
/-! DEFINITION. The TOC decoder's commands TOC_LD and FCB_LD (41_toc.md). -/

namespace Sys2Proof.Machine

/-- `TOC_LD b` loads the TOC byte of a new packet; the frame count is known at once unless the code is 3
(41_toc.md R117). -/
def execTocLd (b : Byte) (s : State) : Result :=
  let s' := s.writeToc b
  let s'' := if tocCode b = 3#2 then s'.dropCount else s'.writeCount (fixedCount (tocCode b))
  s''.respond .ok evNone (BitVec.ofNat 32 (frameUsOf (tocConfig b)))

/-- `FCB_LD f` loads the control byte of a code-3 packet (41_toc.md R118). -/
def execFcbLd (f : Byte) (s : State) : Result :=
  if s.regs.wantsFcb then
    let s' := (s.writeCount (fcbCount f)).writeFcbFlags (fcbPad f) (fcbVbr f)
    s'.respond .ok evNone (BitVec.ofNat 32 s'.regs.totalUs)
  else s.raise .seq 0#32

end Sys2Proof.Machine
end

