-- ==== Sys2Proof/Machine/Dispatch.lean ====
section
/-! DEFINITION. One arm per command, each a direct call of its meaning. -/

namespace Sys2Proof.Machine

def exec (i : Instr) (s : State) : Host.Outcome State Fault Refusal :=
  match i with
  | .nop => Sys2Proof.Machine.execNop s
  | .crcInit => Sys2Proof.Machine.execCrcInit s
  | .crcByte b => Sys2Proof.Machine.execCrcByte b s
  | .tocLd b => Sys2Proof.Machine.execTocLd b s
  | .fcbLd f => Sys2Proof.Machine.execFcbLd f s
  | .pkt sd => Sys2Proof.Machine.execPkt sd s
  | .frm => Sys2Proof.Machine.execFrm s
  | .accClr => Sys2Proof.Machine.execAccClr s
  | .rd r => Sys2Proof.Machine.execRd r s
  | .srst => Sys2Proof.Machine.execSrst s

end Sys2Proof.Machine
end

