-- ==== Sys2Proof/Machine/Step.lean ====
section
/-! DEFINITION. One step of the machine: the next move of the host, executed whole (00_scope.md R9). -/

namespace Sys2Proof.Machine

/-- One step: a command is executed, an illegal word raises ILLEGAL, `rst` resets, and without a move nothing happens
(20_memory.md R59, R67). -/
def step (s : State) : Host.Outcome State Fault Refusal :=
  match fetch s with
  | .idle => holdState s
  | .reset s' => hardReset s'
  | .illegal s' => illegalWord s'
  | .run i s' => exec i s'

/-- The machine with the given table word as the host's next move (log 1). -/
def State.withFetchWord (s : State) (nbits w : Nat) : State := s.present (tableCmdWord nbits w)

end Sys2Proof.Machine
end

