-- ==== Sys2Proof/Safety.lean ====
section
/-! DEFINITION. What the claims speak of beside the machine itself: runs, the invariants of a run, the flush state machine, a host that obeys the events, and the checksum of a page. No rule of the block reads any of it. -/

namespace Sys2Proof.Machine

/-! ### Steps and runs -/

/-- The next state in which only the registers and the response differ from `s`: how a command ends. -/
def State.answer (s : State) (r : Regs) (st : Status) (ev : Events) (d : DataWord) : Result :=
  .next { regs := r, pending := s.pending, rsp := some ⟨st, ev, d⟩ }

/-- `k` steps of the machine. -/
def runSteps : Nat → State → Result
  | 0, s => .next s
  | k + 1, s =>
    match step s with
    | .next t => runSteps k t
    | .fault f => .fault f
    | .refused r => .refused r

/-- The machine with the registers `r`, on whose port the host presents the words `ws` and then the moves `rest`. -/
def portState (r : Regs) (ws : List CmdWord) (rest : List PortMove) (q : Option Response) : State :=
  { regs := r, pending := ws.map PortMove.command ++ rest, rsp := q }

/-- The total function `step : State × Word16 → State × Response` of 20_memory.md R67, read off the machine. -/
def blockStep (r : Regs) (w : CmdWord) : Regs × Response :=
  match step (portState r [w] [] none) with
  | .next t => (t.regs, t.rsp.getD ⟨.ok, evNone, 0#32⟩)
  | .fault _ => (r, ⟨.ok, evNone, 0#32⟩)
  | .refused _ => (r, ⟨.ok, evNone, 0#32⟩)

/-- The state after a list of command words: the left fold of `step` over the list (20_memory.md R59). -/
def foldWords (r : Regs) (ws : List CmdWord) : Regs := ws.foldl (fun q w => (blockStep q w).1) r

/-- The responses to a list of command words, in the order of acceptance (20_memory.md R66). -/
def responsesTo (r : Regs) : List CmdWord → List Response
  | [] => []
  | w :: ws => (blockStep r w).2 :: responsesTo (blockStep r w).1 ws

/-- A move that resets the block: hard reset, or a word that is `SRST` (10_state.md R28, R35). -/
def PortMove.resets : PortMove → Bool
  | .hardReset => true
  | .command w => decode w == .command .srst

end Sys2Proof.Machine

/-! ### What commands need and what gates them -/

namespace Sys2Proof

/-- The commands that `OVER` gates (43_system.md R154). -/
def Instr.gated : Instr → Bool
  | .pkt _ => true
  | .frm => true
  | .accClr => true
  | .nop => false
  | .crcInit => false
  | .crcByte _ => false
  | .tocLd _ => false
  | .fcbLd _ => false
  | .rd _ => false
  | .srst => false

/-- Every register the command needs holds a value: the complement of the causes of SEQ, as 60_exceptions.md R163 lists
them. -/
def Instr.needsMet (r : Machine.Regs) : Instr → Bool
  | .fcbLd _ => r.tocv && r.toc.toNat % 4 == 3
  | .pkt _ => r.tocv && r.nfv
  | .frm => r.tocv
  | .rd k =>
    if k.toNat < 2 then true
    else if k.toNat < 8 then r.tocv
    else if k.toNat = 8 ∨ k.toNat = 10 then r.tocv && r.nfv
    else if k.toNat = 9 then r.tocv && r.nfv && r.toc.toNat % 4 == 3
    else true
  | .nop => true
  | .crcInit => true
  | .crcByte _ => true
  | .tocLd _ => true
  | .accClr => true
  | .srst => true

end Sys2Proof

namespace Sys2Proof.Machine

/-! ### Durations, from the table -/

/-- The table of 41_toc.md R113: `FRAME_US` of `CONFIG` 0 to 31. -/
def durationTable : List Nat :=
  [10000, 20000, 40000, 60000, 10000, 20000, 40000, 60000] ++
  [10000, 20000, 40000, 60000, 10000, 20000, 10000, 20000] ++
  [2500, 5000, 10000, 20000, 2500, 5000, 10000, 20000] ++
  [2500, 5000, 10000, 20000, 2500, 5000, 10000, 20000]

/-- The duration of one frame of a packet with the given TOC byte, from the table of 41_toc.md R113. -/
def tableUs (toc : Byte) : Nat := durationTable.getD (toc.toNat / 8) 0

/-! ### Invariants of a run -/

/-- The range of `ACC` between steps (42_accumulator.md R140 P1, 10_state.md R25). -/
abbrev Regs.AccInRange (r : Regs) : Prop :=
  (r.overFlag = false → r.acc.toNat ≤ 59999) ∧
  (r.overFlag = true → 60001 ≤ r.acc.toNat ∧ r.acc.toNat ≤ 119999)

/-- The range of `ACC` between steps on the grid of 2500 µs (42_accumulator.md R137). -/
abbrev Regs.AccOnGrid (r : Regs) : Prop :=
  r.acc.toNat % 2500 = 0 ∧ (r.overFlag = false → r.acc.toNat ≤ 57500) ∧
  (r.overFlag = true → 62500 ≤ r.acc.toNat ∧ r.acc.toNat ≤ 117500)

/-- `NFV = 1` implies `TOCV = 1`, and a count that a code 0, 1 or 2 fixes is that count (10_state.md R23, 41_toc.md R114). -/
abbrev Regs.CountBelongs (r : Regs) : Prop :=
  (r.nfv = true → r.tocv = true) ∧
  (r.nfv = true → r.toc.toNat % 4 = 0 → r.nframes = 1#6) ∧
  (r.nfv = true → (r.toc.toNat % 4 = 1 ∨ r.toc.toNat % 4 = 2) → r.nframes = 2#6)

/-- What holds of the registers between any two steps of a run from reset. -/
abbrev Regs.Inv (r : Regs) : Prop := r.AccInRange ∧ r.CountBelongs

/-! ### The flush state machine -/

/-- The states of the flush state machine that are seen between steps (42_accumulator.md R132). -/
inductive FlushState where
  | empty
  | filling
  | overshot
  deriving DecidableEq, Repr

/-- The flush state, read off `ACC` and `OVER`; none for the values of `ACC` that R132 gives no state
(42_accumulator.md R132). -/
def Regs.flushState (r : Regs) : Option FlushState :=
  if r.overFlag then some .overshot
  else if r.acc.toNat = 0 then some .empty
  else if r.acc.toNat ≤ 59999 then some .filling
  else none

/-! ### A host that obeys the events -/

/-- What a host appends to its buffer at one event (42_accumulator.md R131): a whole packet, or `TOC1` and one frame. The
bytes themselves the block never sees. -/
inductive Piece where
  | packet (us : Nat)
  | frame (head : Byte) (us : Nat)
  deriving DecidableEq, Repr

/-- The duration of a piece, in microseconds. -/
def Piece.us : Piece → Nat
  | .packet us => us
  | .frame _ us => us

/-- The summed duration of a buffer's pieces. -/
def durationOf (buf : List Piece) : Nat := (buf.map Piece.us).sum

/-- The ghost state of a host (10_state.md R34): its buffer `BUF`, and the units it has emitted, oldest first (log 13). -/
structure HostTrack where
  buf : List Piece
  units : List (List Piece)
  deriving DecidableEq, Repr

/-- The host with an empty buffer and nothing emitted (70_reset_and_hazards.md R194). -/
def HostTrack.start : HostTrack := ⟨[], []⟩

/-- `UNIT_US`: the sum of the durations the block has added since the last emit, `ACC_CLR` or reset (10_state.md R34). -/
def HostTrack.unitUs (h : HostTrack) : Nat := durationOf h.buf

/-- The host obeys one response, first appending, then emitting (42_accumulator.md R131); `r` are the registers the command
found. -/
def HostTrack.obey (h : HostTrack) (r : Regs) (q : Response) : HostTrack :=
  let buf :=
    if q.ev.appendPkt then h.buf ++ [.packet r.totalUs]
    else if q.ev.appendFrm then h.buf ++ [.frame (toc1 r.toc) r.frameUs]
    else h.buf
  if q.ev.emit then ⟨[], h.units ++ [buf]⟩ else ⟨buf, h.units⟩

/-- The host clears its buffer (70_reset_and_hazards.md R194). -/
def HostTrack.clear (h : HostTrack) : HostTrack := ⟨[], h.units⟩

/-- The host after the step from `s` to `t`: it clears its buffer with every reset and with every `ACC_CLR` it issues, and
obeys every other response whose status is OK (42_accumulator.md R131, 70_reset_and_hazards.md R194). -/
def HostTrack.after (h : HostTrack) (s t : State) : HostTrack :=
  match fetch s, t.rsp with
  | .reset _, _ => h.clear
  | .run i _, some q =>
    if i = .srst ∨ i = .accClr then h.clear
    else if q.status = .ok then h.obey s.regs q
    else h
  | _, _ => h

/-- What holds of the block and of a host that obeys it (42_accumulator.md R140 P1 and P3): `ACC` in range, `UNIT_US = ACC`
while `OVER = 0`, and every emitted unit 60000 µs long. -/
def TrackInv (r : Regs) (h : HostTrack) : Prop :=
  r.AccInRange ∧ (r.overFlag = false → h.unitUs = r.acc.toNat) ∧ ∀ u ∈ h.units, durationOf u = 60000

/-! ### The checksum of an Ogg page -/

/-- The page with the CRC field at offsets 22 to 25 zeroed (20_memory.md R54). -/
def zeroCrcField (page : List Byte) : List Byte :=
  page.mapIdx fun k b => if 22 ≤ k ∧ k ≤ 25 then 0#8 else b

/-- The checksum of a page (40_crc.md R106). -/
def pageChecksum (page : List Byte) : DataWord := crcStream (zeroCrcField page) Config.crcInitValue

/-- The page with a checksum stored little-endian at offsets 22 to 25 (20_memory.md R53). -/
def patchCrc (page : List Byte) (c : DataWord) : List Byte :=
  page.mapIdx fun k b =>
    if k = 22 then c.extractLsb' 0 8
    else if k = 23 then c.extractLsb' 8 8
    else if k = 24 then c.extractLsb' 16 8
    else if k = 25 then c.extractLsb' 24 8
    else b

/-- The little-endian number at page offset 22 (20_memory.md R53). -/
def storedCrc (page : List Byte) : DataWord :=
  page.getD 25 0#8 ++ page.getD 24 0#8 ++ page.getD 23 0#8 ++ page.getD 22 0#8

/-- The words that feed a byte string to the CRC unit, `CRC_BYTE b` being 0x2000 | b (40_crc.md R104). -/
def crcByteWords (bs : List Byte) : List CmdWord := bs.map fun b => 0x2000#16 ||| b.setWidth 16

/-- The words a host issues for the checksum of a page: `CRC_INIT`, the bytes with the CRC field as zero, `RD 1`
(40_crc.md R106). -/
def pageWords (page : List Byte) : List CmdWord := 0x1000#16 :: (crcByteWords (zeroCrcField page) ++ [0x8100#16])

end Sys2Proof.Machine
end

