-- ==== Sys2Proof/Certificates/Slice0/Obligations.lean ====
section
/-! DEFINITION. The statements for the provers, each from a numbered rule of spec/. `s.answer r st ev d` is the next state with registers `r`, the response (st, ev, d) and the rest of the port as in `s`: a result written with it states its frame too. -/

open Sys2Proof Sys2Proof.Machine

/-! ### Reset and steps -/

/-- Derived from 10_state.md R35, 70_reset_and_hazards.md R190, 43_system.md R153: the values after hard reset and after SRST,
the fault line among them. That the response port is empty after hard reset (`rsp := none`) is the model's own choice, log 2. -/
def Obligations.ResetValues : Prop :=
  State.reset.regs =
    { crc := 0x00000000#32, toc := 0x00#8, tocv := false, nframes := 0#6, nfv := false, vbr := false, pad := false,
      acc := 0#17, overFlag := false, illFlag := false, seqFlag := false } ∧
  State.reset.faultLine = false ∧
  (∀ s rest, s.pending = .hardReset :: rest →
    step s = .next { regs := State.reset.regs, pending := rest, rsp := none }) ∧
  (∀ s, exec .srst s = s.answer State.reset.regs .ok evNone 0#32)

/-- 20_memory.md R59, R67: a command word that decodes is executed whole, from the state whose port holds the later moves;
without a move the machine holds its state (the model's convention, log 3). -/
def Obligations.StepRunsDecodedCommand : Prop :=
  (∀ s w rest i, s.pending = .command w :: rest → decode w = .command i →
    step s = exec i { s with pending := rest }) ∧
  (∀ s, s.pending = [] → step s = .next s)

/-- 60_exceptions.md R162: a word that does not decode raises ILLEGAL, whatever the state. -/
def Obligations.IllegalWordRaisesIllegal : Prop :=
  (∀ s w rest why, s.pending = .command w :: rest → decode w = .illegal why →
    step s = State.answer { s with pending := rest } { s.regs with illFlag := true } .illegal evNone 0#32) ∧
  (Response.mk .illegal evNone 0#32).word = 0x1000000000#40

/-- 60_exceptions.md R160, 20_memory.md R66: every step answers a next state; a command word, legal or not, takes one move
off the port and produces one response. -/
def Obligations.EveryStepGoesOn : Prop :=
  (∀ s, ∃ t, step s = .next t) ∧
  (∀ s w rest, s.pending = .command w :: rest → ∃ t q, step s = .next t ∧ t.pending = rest ∧ t.rsp = some q)

/-- 20_memory.md R59: the state after a list of command words is the left fold of `step` over the list; the last response is
that of the last word. -/
def Obligations.RunIsLeftFold : Prop :=
  ∀ (ws : List CmdWord) (r : Regs) (rest : List PortMove) (q : Option Response),
    runSteps ws.length (portState r ws rest q) =
      .next { regs := foldWords r ws, pending := rest, rsp := (responsesTo r ws).getLast?.or q }

/-! ### Encoding -/

/-- 30_encoding.md R72, R73, with the match and mask of R74: a word decodes to a command exactly when it matches the
command's row, and the operands are its bits as they stand. -/
def Obligations.DecodeFollowsOpcodeTable : Prop :=
  ∀ w : CmdWord,
    (decode w = .command .nop ↔ w &&& 0xFFFF#16 = 0x0000#16) ∧
    (decode w = .command .crcInit ↔ w &&& 0xFFFF#16 = 0x1000#16) ∧
    (∀ b, decode w = .command (.crcByte b) ↔ w &&& 0xFF00#16 = 0x2000#16 ∧ b.toNat = w.toNat % 256) ∧
    (∀ b, decode w = .command (.tocLd b) ↔ w &&& 0xFF00#16 = 0x3000#16 ∧ b.toNat = w.toNat % 256) ∧
    (∀ f, decode w = .command (.fcbLd f) ↔ w &&& 0xFF00#16 = 0x4000#16 ∧ f.toNat = w.toNat % 256) ∧
    (∀ sd, decode w = .command (.pkt sd) ↔ w &&& 0xFEFF#16 = 0x5000#16 ∧ sd = w.getLsbD 8) ∧
    (decode w = .command .frm ↔ w &&& 0xFFFF#16 = 0x6000#16) ∧
    (decode w = .command .accClr ↔ w &&& 0xFFFF#16 = 0x7000#16) ∧
    (∀ r, decode w = .command (.rd r) ↔
      w &&& 0xF0FF#16 = 0x8000#16 ∧ r.toNat = w.toNat / 256 % 16 ∧ r.toNat ≤ 11) ∧
    (decode w = .command .srst ↔ w &&& 0xFFFF#16 = 0x9000#16)

/-- 30_encoding.md R75: which words are illegal, and what an illegal word does. -/
def Obligations.ReservedWordsAreIllegal : Prop :=
  (∀ w : CmdWord, (∃ why, decode w = .illegal why) ↔
    10 ≤ w.toNat / 4096 ∨
    (w.toNat / 4096 ∈ [0, 1, 6, 7, 9] ∧ w.toNat % 4096 ≠ 0) ∨
    (w.toNat / 4096 ∈ [2, 3, 4] ∧ w.toNat / 256 % 16 ≠ 0) ∨
    (w.toNat / 4096 = 5 ∧ (2 ≤ w.toNat / 256 % 16 ∨ w.toNat % 256 ≠ 0)) ∨
    (w.toNat / 4096 = 8 ∧ (w.toNat % 256 ≠ 0 ∨ 12 ≤ w.toNat / 256 % 16))) ∧
  (∀ s w rest why, s.pending = .command w :: rest → decode w = .illegal why →
    step s = State.answer { s with pending := rest } { s.regs with illFlag := true } .illegal evNone 0#32)

/-- Derived from 30_encoding.md R74: decoding the word of a well-formed command gives the command back. -/
def Obligations.DecodeOfEncode : Prop := ∀ i : Instr, i.wf = true → decode (encode i) = .command i

/-- Derived from 30_encoding.md R73, R74: a word that decodes is the word of its command, and the command is well-formed. -/
def Obligations.EncodeOfDecode : Prop := ∀ w i, decode w = .command i → i.wf = true ∧ encode i = w

/-- 95_test_vectors.md sections 5.1 and 5.2, 30_encoding.md R78: words written out from the encoding. -/
def Obligations.SampleWordsDecode : Prop :=
  decode 0b0000000000000000#16 = .command .nop ∧
  decode 0b0001000000000000#16 = .command .crcInit ∧
  decode 0b0010000001001111#16 = .command (.crcByte 0x4F#8) ∧
  decode 0b0011000000001011#16 = .command (.tocLd 0x0B#8) ∧
  decode 0b0100000010000011#16 = .command (.fcbLd 0x83#8) ∧
  decode 0b0101000000000000#16 = .command (.pkt false) ∧
  decode 0b0101000100000000#16 = .command (.pkt true) ∧
  decode 0b0110000000000000#16 = .command .frm ∧
  decode 0b0111000000000000#16 = .command .accClr ∧
  decode 0b1000101100000000#16 = .command (.rd 11#4) ∧
  decode 0b1001000000000000#16 = .command .srst ∧
  decode 0b1000110000000000#16 = .illegal .noSuchRegister ∧
  decode 0b0101001000000000#16 = .illegal .reservedBits ∧
  decode 0b1010000000000000#16 = .illegal .noSuchOpcode

/-- 30_encoding.md R80: the fields of the response word; the codes are those of R81, the strobes those of R82. -/
def Obligations.ResponseWordFields : Prop :=
  ∀ q : Response,
    q.word.extractLsb' 0 32 = q.data ∧
    (q.word.getLsbD 32 = q.ev.emit ∧ q.word.getLsbD 33 = q.ev.appendPkt ∧
      q.word.getLsbD 34 = q.ev.appendFrm ∧ q.word.getLsbD 35 = q.ev.split) ∧
    (q.word.extractLsb' 36 4).toNat =
      match q.status with
      | .ok => 0
      | .illegal => 1
      | .seq => 2
      | .faulted => 3
      | .overshoot => 4

/-! ### The CRC unit -/

/-- 40_crc.md R103: CRC_INIT, in every state. -/
def Obligations.CrcInitStartsChecksum : Prop :=
  decode 0x1000#16 = .command .crcInit ∧
  ∀ s, exec .crcInit s = s.answer { s.regs with crc := 0x00000000#32 } .ok evNone 0x00000000#32

/-- 40_crc.md R104: the byte recurrence, in every state; the table function is R101's. -/
def Obligations.CrcByteFoldsByte : Prop :=
  ∀ b : Byte,
    decode (0x2000#16 ||| b.setWidth 16) = .command (.crcByte b) ∧
    ∀ s, exec (.crcByte b) s =
      s.answer { s.regs with crc := (s.regs.crc <<< 8) ^^^ crcTable (s.regs.crc.extractLsb' 24 8 ^^^ b) } .ok evNone
        ((s.regs.crc <<< 8) ^^^ crcTable (s.regs.crc.extractLsb' 24 8 ^^^ b))

/-- 40_crc.md R101: the table function is eight shifts of the byte in bits 31:24, has the spot values, and is linear. -/
def Obligations.CrcTableFunction : Prop :=
  (∀ i : Byte, crcTable i =
    (fun r : BitVec 32 => if r.getLsbD 31 then (r <<< 1) ^^^ 0x04C11DB7#32 else r <<< 1)^[8] (i.setWidth 32 <<< 24)) ∧
  ([0, 1, 2, 3, 4, 8, 16, 32, 64, 128, 255].map fun n => crcTable (BitVec.ofNat 8 n)) =
    [0x00000000#32, 0x04C11DB7#32, 0x09823B6E#32, 0x0D4326D9#32, 0x130476DC#32, 0x2608EDB8#32, 0x4C11DB70#32,
      0x9823B6E0#32, 0x34867077#32, 0x690CE0EE#32, 0xB1F740B4#32] ∧
  (∀ i j : Byte, crcTable (i ^^^ j) = crcTable i ^^^ crcTable j)

/-- 40_crc.md R102: CRC_BYTE is eight steps of a one-bit divider fed the bits of the byte from bit 7 down to bit 0. -/
def Obligations.CrcByteIsBitSerial : Prop :=
  ∀ (b : Byte) (s : State), ∃ c, exec (.crcByte b) s = s.answer { s.regs with crc := c } .ok evNone c ∧
    c = [7, 6, 5, 4, 3, 2, 1, 0].foldl
      (fun (crc : BitVec 32) k =>
        if crc.getLsbD 31 ^^ b.getLsbD k then (crc <<< 1) ^^^ 0x04C11DB7#32 else crc <<< 1) s.regs.crc

/-- 20_memory.md R51: after CRC_INIT and the bytes of a list, whatever the registers were and whatever follows, the CRC is
the fold of R104 over exactly those bytes in that order, it is the last response's data, and nothing else has changed. -/
def Obligations.CrcDependsOnTheBytesAlone : Prop :=
  ∀ (bs : List Byte) (r : Regs) (rest : List PortMove) (q : Option Response),
    runSteps (bs.length + 1) (portState r (0x1000#16 :: crcByteWords bs) rest q) =
      .next { regs := { r with crc := crcStream bs 0#32 }, pending := rest,
              rsp := some ⟨.ok, evNone, crcStream bs 0#32⟩ }

/-- 40_crc.md R107: the laws of the checksum of a byte string. -/
def Obligations.CrcLaws : Prop :=
  (∀ s t c, crcStream (s ++ t) c = crcStream t (crcStream s c)) ∧
  (∀ s t c d, s.length = t.length →
    crcStream (List.zipWith (· ^^^ ·) s t) (c ^^^ d) = crcStream s c ^^^ crcStream t d) ∧
  (∀ n, crcStream (List.replicate n 0#8) 0#32 = 0#32) ∧
  (∀ s, crcStream
    (s ++ [(crcStream s 0#32).extractLsb' 24 8, (crcStream s 0#32).extractLsb' 16 8,
      (crcStream s 0#32).extractLsb' 8 8, (crcStream s 0#32).extractLsb' 0 8]) 0#32 = 0#32) ∧
  (∀ c b, crcUpdate c b = crcSerial c b)

/-- Derived from 40_crc.md R106: the words for a page's checksum, run from any state, end in the response (OK, 0, checksum)
and change only CRC; and a page patched with any number at offset 22 has the same checksum and holds that number there, so
that recomputing over a page its writer patched reproduces the stored value (20_memory.md R53, R54). -/
def Obligations.PageChecksumIsReproduced : Prop :=
  (∀ (page : List Byte) (r : Regs) (rest : List PortMove) (q : Option Response),
    runSteps (page.length + 2) (portState r (pageWords page) rest q) =
      .next { regs := { r with crc := pageChecksum page }, pending := rest,
              rsp := some ⟨.ok, evNone, pageChecksum page⟩ }) ∧
  (∀ (page : List Byte) (c : DataWord), 26 ≤ page.length →
    pageChecksum (patchCrc page c) = pageChecksum page ∧ storedCrc (patchCrc page c) = c)

/-! ### The TOC decoder -/

/-- 41_toc.md R117: TOC_LD, for every byte and in every state; the duration is read from the table of R113. -/
def Obligations.TocLdLoadsToc : Prop :=
  ∀ b : Byte,
    decode (0x3000#16 ||| b.setWidth 16) = .command (.tocLd b) ∧
    ∀ s, exec (.tocLd b) s =
      s.answer
        { s.regs with
          toc := b, tocv := true, nfv := decide (b.toNat % 4 ≠ 3),
          nframes := if b.toNat % 4 = 3 then s.regs.nframes else if b.toNat % 4 = 0 then 1#6 else 2#6 }
        .ok evNone (BitVec.ofNat 32 (tableUs b))

/-- 41_toc.md R118: FCB_LD of a code-3 TOC loads count, padding flag and VBR flag; without one it raises SEQ. -/
def Obligations.FcbLdLoadsControlByte : Prop :=
  ∀ f : Byte,
    decode (0x4000#16 ||| f.setWidth 16) = .command (.fcbLd f) ∧
    (∀ s, s.regs.tocv = true → s.regs.toc.toNat % 4 = 3 →
      exec (.fcbLd f) s =
        s.answer
          { s.regs with
            nframes := BitVec.ofNat 6 (f.toNat % 64), nfv := true, pad := f.getLsbD 6, vbr := f.getLsbD 7 }
          .ok evNone (BitVec.ofNat 32 (f.toNat % 64 * tableUs s.regs.toc))) ∧
    (∀ s, (s.regs.tocv = false ∨ s.regs.toc.toNat % 4 ≠ 3) →
      exec (.fcbLd f) s = s.answer { s.regs with seqFlag := true } .seq evNone 0#32)

/-- 41_toc.md R112: RD 6 after TOC_LD of a byte gives TOC1; TOC_LD of TOC1 responds the same duration, keeps CONFIG and
STEREO, and sets the frame count 1. -/
def Obligations.SingleFrameToc : Prop :=
  ∀ (b : Byte) (s : State),
    ∃ t u v, exec (.tocLd b) s = .next t ∧
      exec (.rd 6#4) t = t.answer t.regs .ok evNone ((b &&& 0xFC#8).setWidth 32) ∧
      exec (.tocLd (b &&& 0xFC#8)) t = .next u ∧
      u.rsp = t.rsp ∧ u.regs.toc = b &&& 0xFC#8 ∧
      u.regs.toc.extractLsb' 2 6 = b.extractLsb' 2 6 ∧ u.regs.toc.extractLsb' 0 2 = 0#2 ∧
      u.regs.nfv = true ∧ u.regs.nframes = 1#6 ∧
      exec (.rd 7#4) u = .next v ∧ v.rsp = t.rsp

/-! ### The accumulator -/

/-- 42_accumulator.md R134: PKT, clause by clause. -/
def Obligations.PktTakesPathDecision : Prop :=
  decode 0x5000#16 = .command (.pkt false) ∧ decode 0x5100#16 = .command (.pkt true) ∧
  (∀ sd s, s.regs.overFlag = true → exec (.pkt sd) s = s.answer s.regs .faulted evNone 0#32) ∧
  (∀ sd s, s.regs.overFlag = false → (s.regs.tocv = false ∨ s.regs.nfv = false) →
    exec (.pkt sd) s = s.answer { s.regs with seqFlag := true } .seq evNone 0#32) ∧
  (∀ sd s, s.regs.overFlag = false → s.regs.tocv = true → s.regs.nfv = true →
    exec (.pkt sd) s =
      if sd = false ∧ s.regs.acc.toNat + s.regs.nframes.toNat * tableUs s.regs.toc = 60000 then
        s.answer { s.regs with acc := 0#17 } .ok ⟨true, true, false, false⟩ 0#32
      else if sd = false ∧ s.regs.acc.toNat + s.regs.nframes.toNat * tableUs s.regs.toc < 60000 then
        s.answer
          { s.regs with acc := BitVec.ofNat 17 (s.regs.acc.toNat + s.regs.nframes.toNat * tableUs s.regs.toc) }
          .ok ⟨false, true, false, false⟩
          (BitVec.ofNat 32 (s.regs.acc.toNat + s.regs.nframes.toNat * tableUs s.regs.toc))
      else s.answer s.regs .ok ⟨false, false, false, true⟩ (s.regs.acc.setWidth 32))

/-- Derived from 42_accumulator.md R135: PKT answering SPLIT changes no register and may be repeated; a self-delimited packet
is always split, and so is one longer than the budget; a zero count is appended and adds nothing. -/
def Obligations.SplitIsAPureQuery : Prop :=
  (∀ sd s t q, exec (.pkt sd) s = .next t → t.rsp = some q → q.ev.split = true →
    t.regs = s.regs ∧ exec (.pkt sd) t = .next t) ∧
  (∀ sd s, s.regs.overFlag = false → s.regs.tocv = true → s.regs.nfv = true →
    (sd = true ∨ 60000 < s.regs.nframes.toNat * tableUs s.regs.toc) →
    exec (.pkt sd) s = s.answer s.regs .ok ⟨false, false, false, true⟩ (s.regs.acc.setWidth 32)) ∧
  (∀ s, s.regs.AccInRange → s.regs.overFlag = false → s.regs.tocv = true → s.regs.nfv = true → s.regs.nframes = 0#6 →
    exec (.pkt false) s = s.answer s.regs .ok ⟨false, true, false, false⟩ (s.regs.acc.setWidth 32))

/-- 42_accumulator.md R136: FRM, clause by clause. A sum above 2^17 - 1 cannot occur where ACC is in its range (R139); what the
model stores there is log 6. -/
def Obligations.FrmAccumulatesFrame : Prop :=
  decode 0x6000#16 = .command .frm ∧
  (∀ s, s.regs.overFlag = true → exec .frm s = s.answer s.regs .faulted evNone 0#32) ∧
  (∀ s, s.regs.overFlag = false → s.regs.tocv = false →
    exec .frm s = s.answer { s.regs with seqFlag := true } .seq evNone 0#32) ∧
  (∀ s, s.regs.overFlag = false → s.regs.tocv = true → s.regs.acc.toNat + tableUs s.regs.toc < 60000 →
    exec .frm s =
      s.answer { s.regs with acc := BitVec.ofNat 17 (s.regs.acc.toNat + tableUs s.regs.toc) }
        .ok ⟨false, false, true, false⟩ (BitVec.ofNat 32 (s.regs.acc.toNat + tableUs s.regs.toc))) ∧
  (∀ s, s.regs.overFlag = false → s.regs.tocv = true → s.regs.acc.toNat + tableUs s.regs.toc = 60000 →
    exec .frm s = s.answer { s.regs with acc := 0#17 } .ok ⟨true, false, true, false⟩ 0#32) ∧
  (∀ s, s.regs.overFlag = false → s.regs.tocv = true → 60000 < s.regs.acc.toNat + tableUs s.regs.toc →
    s.regs.AccInRange →
    exec .frm s =
      s.answer { s.regs with acc := BitVec.ofNat 17 (s.regs.acc.toNat + tableUs s.regs.toc), overFlag := true }
        .overshoot evNone (BitVec.ofNat 32 (s.regs.acc.toNat + tableUs s.regs.toc)))

/-- 42_accumulator.md R139: after an overshoot ACC holds the accumulated duration, between 60001 and 119999, the response's
data is that number, and RD 11 reads it after any number of steps without a reset. -/
def Obligations.OvershootValueIsTheSum : Prop :=
  ∀ s t q, s.regs.AccInRange → exec .frm s = .next t → t.rsp = some q → q.status = .overshoot →
    t.regs.acc.toNat = s.regs.acc.toNat + tableUs s.regs.toc ∧
    60001 ≤ t.regs.acc.toNat ∧ t.regs.acc.toNat ≤ 119999 ∧
    q.data.toNat = t.regs.acc.toNat ∧
    ∀ n u, (∀ m ∈ t.pending.take n, m.resets = false) → runSteps n t = .next u →
      exec (.rd 11#4) u = u.answer u.regs .ok evNone q.data

/-- 42_accumulator.md R138: ACC_CLR, in every state. -/
def Obligations.AccClrAbandonsUnit : Prop :=
  decode 0x7000#16 = .command .accClr ∧
  (∀ s, s.regs.overFlag = true → exec .accClr s = s.answer s.regs .faulted evNone 0#32) ∧
  (∀ s, s.regs.overFlag = false → exec .accClr s = s.answer { s.regs with acc := 0#17 } .ok evNone 0#32)

/-- Derived from 42_accumulator.md R136 (and 95_test_vectors.md P5): any number of FRM commands whose frames stay below the
budget add up, one frame duration each, and change nothing but ACC. -/
def Obligations.FrmRunAddsUp : Prop :=
  ∀ (n : Nat) (r : Regs) (rest : List PortMove) (q : Option Response),
    r.overFlag = false → r.tocv = true → r.acc.toNat + n * tableUs r.toc < 60000 →
    ∃ t, runSteps n (portState r (List.replicate n 0x6000#16) rest q) = .next t ∧ t.pending = rest ∧
      t.regs = { r with acc := BitVec.ofNat 17 (r.acc.toNat + n * tableUs r.toc) }

/-- 42_accumulator.md R133: the transitions of the flush state machine, for every command, every illegal word and hard reset. -/
def Obligations.FlushTransitions : Prop :=
  (∀ (i : Instr) (s t : State) (q : Response), s.regs.AccInRange → i.wf = true →
    exec i s = .next t → t.rsp = some q →
    (s.regs.overFlag = false → s.regs.tocv = true → s.regs.nfv = true → i = .pkt false →
      (s.regs.acc.toNat + s.regs.totalUs = 0 → t.regs.flushState = some .empty ∧ q.ev = evAppendPkt) ∧
      (0 < s.regs.acc.toNat + s.regs.totalUs → s.regs.acc.toNat + s.regs.totalUs < 60000 →
        t.regs.flushState = some .filling ∧ t.regs.acc.toNat = s.regs.acc.toNat + s.regs.totalUs ∧ q.ev = evAppendPkt) ∧
      (s.regs.acc.toNat + s.regs.totalUs = 60000 →
        t.regs.flushState = some .empty ∧ t.regs.acc = 0#17 ∧ q.ev = evAppendPktEmit) ∧
      (60000 < s.regs.acc.toNat + s.regs.totalUs → t.regs = s.regs ∧ q.ev = evSplit)) ∧
    (s.regs.overFlag = false → s.regs.tocv = true → s.regs.nfv = true → i = .pkt true → t.regs = s.regs ∧ q.ev = evSplit) ∧
    (s.regs.overFlag = false → s.regs.tocv = true → i = .frm →
      (s.regs.acc.toNat + s.regs.frameUs < 60000 →
        t.regs.flushState = some .filling ∧ t.regs.acc.toNat = s.regs.acc.toNat + s.regs.frameUs ∧ q.ev = evAppendFrm) ∧
      (s.regs.acc.toNat + s.regs.frameUs = 60000 →
        t.regs.flushState = some .empty ∧ t.regs.acc = 0#17 ∧ q.ev = evAppendFrmEmit) ∧
      (60000 < s.regs.acc.toNat + s.regs.frameUs →
        s.regs.flushState = some .filling ∧ t.regs.flushState = some .overshot ∧
        t.regs.acc.toNat = s.regs.acc.toNat + s.regs.frameUs ∧ q.ev = evNone ∧ q.status = .overshoot)) ∧
    (s.regs.overFlag = false → i = .accClr → t.regs.flushState = some .empty ∧ t.regs.acc = 0#17 ∧ q.ev = evNone) ∧
    (s.regs.overFlag = true → i.gated = true → t.regs = s.regs ∧ q.ev = evNone ∧ q.status = .faulted) ∧
    (i = .srst → t.regs.flushState = some .empty ∧ t.regs.acc = 0#17 ∧ q.ev = evNone) ∧
    ((i.gated = false ∧ i ≠ .srst) ∨ (q.status ≠ .ok ∧ q.status ≠ .overshoot) →
      t.regs.flushState = s.regs.flushState ∧ t.regs.acc = s.regs.acc ∧ q.ev = evNone)) ∧
  (∀ s w rest why, s.pending = .command w :: rest → decode w = .illegal why →
    ∃ t, step s = .next t ∧ t.regs.flushState = s.regs.flushState ∧ t.regs.acc = s.regs.acc) ∧
  (∀ s rest, s.pending = .hardReset :: rest →
    ∃ t, step s = .next t ∧ t.regs.flushState = some .empty ∧ t.regs.acc = 0#17)

/-! ### The system commands -/

/-- Derived from 43_system.md R151 and 30_encoding.md R76: NOP changes no register and responds (OK, 0, 0); it is the only
well-formed command that does so in every state. (That it is the only one to respond OK and change nothing, the data left
open, is not so: RD 0 does too; log 12.) -/
def Obligations.NopAloneIsSilent : Prop :=
  decode 0x0000#16 = .command .nop ∧
  (∀ s, exec .nop s = s.answer s.regs .ok evNone 0#32) ∧
  (Response.mk .ok evNone 0#32).word = 0x0000000000#40 ∧
  (∀ i : Instr, (∀ s, exec i s = s.answer s.regs .ok evNone 0#32) → i = .nop)

/-- 43_system.md R152: RD, register by register. -/
def Obligations.RdReadsRegister : Prop :=
  (∀ r : BitVec 4, r.toNat ≤ 11 → decode (0x8000#16 ||| r.setWidth 16 <<< 8) = .command (.rd r)) ∧
  (∀ r : BitVec 4, 12 ≤ r.toNat → ∃ why, decode (0x8000#16 ||| r.setWidth 16 <<< 8) = .illegal why) ∧
  (∀ s, exec (.rd 0#4) s = s.answer s.regs .ok evNone s.regs.statusWord) ∧
  (∀ s, exec (.rd 1#4) s = s.answer s.regs .ok evNone s.regs.crc) ∧
  (∀ s, exec (.rd 11#4) s = s.answer s.regs .ok evNone (s.regs.acc.setWidth 32)) ∧
  (∀ s, s.regs.tocv = true →
    exec (.rd 2#4) s = s.answer s.regs .ok evNone (s.regs.toc.setWidth 32) ∧
    exec (.rd 3#4) s = s.answer s.regs .ok evNone (BitVec.ofNat 32 (s.regs.toc.toNat / 8)) ∧
    exec (.rd 4#4) s = s.answer s.regs .ok evNone (BitVec.ofNat 32 (s.regs.toc.toNat / 4 % 2)) ∧
    exec (.rd 5#4) s = s.answer s.regs .ok evNone (BitVec.ofNat 32 (s.regs.toc.toNat % 4)) ∧
    exec (.rd 6#4) s = s.answer s.regs .ok evNone ((s.regs.toc &&& 0xFC#8).setWidth 32) ∧
    exec (.rd 7#4) s = s.answer s.regs .ok evNone (BitVec.ofNat 32 (tableUs s.regs.toc))) ∧
  (∀ s, s.regs.tocv = true → s.regs.nfv = true →
    exec (.rd 8#4) s = s.answer s.regs .ok evNone (s.regs.nframes.setWidth 32) ∧
    exec (.rd 10#4) s =
      s.answer s.regs .ok evNone (BitVec.ofNat 32 (s.regs.nframes.toNat * tableUs s.regs.toc)) ∧
    (s.regs.toc.toNat % 4 = 3 →
      exec (.rd 9#4) s =
        s.answer s.regs .ok evNone (BitVec.ofNat 32 (2 * s.regs.vbr.toNat + s.regs.pad.toNat)))) ∧
  (∀ (k : BitVec 4) (s : State), k.toNat ≤ 11 → (Instr.rd k).needsMet s.regs = false →
    exec (.rd k) s = s.answer { s.regs with seqFlag := true } .seq evNone 0#32)

/-- 20_memory.md R58: RD of a register that has a value responds OK, changes no register, and repeating it gives the same
response and the same state; RD of one that has none sets SEQ and nothing else. -/
def Obligations.ReadsAreIdempotent : Prop :=
  ∀ (k : BitVec 4) (s : State), k.toNat ≤ 11 →
    ((Instr.rd k).needsMet s.regs = true →
      ∃ v, exec (.rd k) s = s.answer s.regs .ok evNone v ∧
        ∀ t, exec (.rd k) s = .next t → exec (.rd k) t = .next t) ∧
    ((Instr.rd k).needsMet s.regs = false →
      exec (.rd k) s = s.answer { s.regs with seqFlag := true } .seq evNone 0#32)

/-- 10_state.md R29: what RD 0 returns, bit by bit. -/
def Obligations.StatusRegisterBits : Prop :=
  ∀ s, ∃ d, exec (.rd 0#4) s = s.answer s.regs .ok evNone d ∧
    d.getLsbD 0 = s.regs.overFlag ∧ d.getLsbD 1 = s.regs.illFlag ∧ d.getLsbD 2 = s.regs.seqFlag ∧
    d.getLsbD 8 = s.regs.tocv ∧ d.getLsbD 9 = s.regs.nfv ∧
    (∀ k, k ∉ [0, 1, 2, 8, 9] → d.getLsbD k = false)

/-- 43_system.md R153: SRST gives the reset state and a response, and no other command clears a sticky flag. -/
def Obligations.SrstAloneClearsFlags : Prop :=
  decode 0x9000#16 = .command .srst ∧
  (∀ s, exec .srst s =
    s.answer
      { crc := 0#32, toc := 0#8, tocv := false, nframes := 0#6, nfv := false, vbr := false, pad := false, acc := 0#17,
        overFlag := false, illFlag := false, seqFlag := false } .ok evNone 0#32) ∧
  (∀ i s t, i ≠ .srst → exec i s = .next t →
    (s.regs.overFlag = true → t.regs.overFlag = true) ∧ (s.regs.illFlag = true → t.regs.illFlag = true) ∧
    (s.regs.seqFlag = true → t.regs.seqFlag = true))

/-! ### Faults and responses -/

/-- 43_system.md R154: PKT, FRM and ACC_CLR respond FAULTED while OVER = 1; every other command behaves in every state of the
flags as in any other: the same response (but for RD 0, whose data is the flags), the same effect on every other register;
and ILL and SEQ gate nothing. -/
def Obligations.OverGatesTheAccumulatorAlone : Prop :=
  (∀ i s, i.gated = true → s.regs.overFlag = true → exec i s = s.answer s.regs .faulted evNone 0#32) ∧
  (∀ i s o l q, i.gated = false ∨ o = s.regs.overFlag →
    ∃ t t' a a', exec i s = .next t ∧ t.rsp = some a ∧
      exec i { s with regs := { s.regs with overFlag := o, illFlag := l, seqFlag := q } } = .next t' ∧ t'.rsp = some a' ∧
      a'.status = a.status ∧ a'.ev = a.ev ∧ (i ≠ .rd 0#4 → a'.data = a.data) ∧
      t'.regs = { t.regs with overFlag := t'.regs.overFlag, illFlag := t'.regs.illFlag, seqFlag := t'.regs.seqFlag })

/-- 60_exceptions.md R164: FAULTED changes no register. -/
def Obligations.FaultedChangesNothing : Prop :=
  (∀ s, s.regs.overFlag = true →
    (∀ sd, exec (.pkt sd) s = s.answer s.regs .faulted evNone 0#32) ∧
    exec .frm s = s.answer s.regs .faulted evNone 0#32 ∧
    exec .accClr s = s.answer s.regs .faulted evNone 0#32) ∧
  (∀ i s t q, i.wf = true → exec i s = .next t → t.rsp = some q → q.status = .faulted →
    s.regs.overFlag = true ∧ i.gated = true) ∧
  (Response.mk .faulted evNone 0#32).word = 0x3000000000#40

/-- 60_exceptions.md R163: SEQ is raised exactly when a needed register holds no value (and OVER does not gate the command
first); it sets the SEQ flag, changes nothing else and responds (SEQ, 0, 0). -/
def Obligations.SeqRaisedWhenNoValue : Prop :=
  ∀ (i : Instr) (s : State), i.wf = true → (i.gated = true → s.regs.overFlag = false) →
    (i.needsMet s.regs = false ↔ ∃ t q, exec i s = .next t ∧ t.rsp = some q ∧ q.status = .seq) ∧
    (i.needsMet s.regs = false → exec i s = s.answer { s.regs with seqFlag := true } .seq evNone 0#32)

/-- Derived from 60_exceptions.md R169: the status of the response to any command word in any state, in the order of the checks. -/
def Obligations.StatusFollowsPriority : Prop :=
  ∀ (s : State) (w : CmdWord) (rest : List PortMove), s.pending = .command w :: rest →
    ∃ t q, step s = .next t ∧ t.rsp = some q ∧
      q.status =
        match decode w with
        | .illegal _ => .illegal
        | .command i =>
          if i.gated = true ∧ s.regs.overFlag = true then .faulted
          else if i.needsMet s.regs = false then .seq
          else if i = .frm ∧ 60000 < s.regs.acc.toNat + tableUs s.regs.toc then .overshoot
          else .ok

/-- Derived from 60_exceptions.md R160 to R165 and 30_encoding.md R83: a faulting command changes exactly what its fault names,
raises no event, and responds data 0 but for OVERSHOOT, whose data is ACC after the command (R83). That ACC is the sum narrowed to
17 bits, also where ACC was out of its range and the sum does not fit, is the model's own reading, log 6. -/
def Obligations.FaultsArePrecise : Prop :=
  ∀ (s t : State) (w : CmdWord) (rest : List PortMove) (q : Response),
    s.pending = .command w :: rest → step s = .next t → t.rsp = some q → q.status ≠ .ok →
    t.pending = rest ∧ q.ev = evNone ∧
    (q.status = .illegal → t.regs = { s.regs with illFlag := true } ∧ q.data = 0#32) ∧
    (q.status = .seq → t.regs = { s.regs with seqFlag := true } ∧ q.data = 0#32) ∧
    (q.status = .faulted → t.regs = s.regs ∧ s.regs.overFlag = true ∧ q.data = 0#32) ∧
    (q.status = .overshoot → decode w = .command .frm ∧ 60000 < s.regs.acc.toNat + tableUs s.regs.toc ∧
      t.regs = { s.regs with
        acc := BitVec.ofNat 17 (s.regs.acc.toNat + tableUs s.regs.toc), overFlag := true } ∧
      q.data = t.regs.acc.setWidth 32)

/-- Derived from 30_encoding.md R82: the event combinations that occur; no event but from an OK response of PKT or FRM. -/
def Obligations.EventCombinations : Prop :=
  ∀ (s t : State) (w : CmdWord) (rest : List PortMove) (q : Response),
    s.pending = .command w :: rest → step s = .next t → t.rsp = some q →
    q.ev.bits ∈ [0b0000#4, 0b0010#4, 0b0011#4, 0b0100#4, 0b0101#4, 0b1000#4] ∧
    (q.ev.bits ≠ 0b0000#4 → q.status = .ok ∧
      (decode w = .command .frm ∨ ∃ sd, decode w = .command (.pkt sd)))

/-- 30_encoding.md R83: the data of a response. -/
def Obligations.ResponseData : Prop :=
  ∀ (i : Instr) (s t : State) (q : Response), i.wf = true → exec i s = .next t → t.rsp = some q →
    (q.status = .ok →
      match i with
      | .nop | .srst => q.data = 0#32
      | .crcInit | .crcByte _ => q.data = t.regs.crc
      | .tocLd b => q.data.toNat = tableUs b
      | .fcbLd _ => q.data.toNat = t.regs.nframes.toNat * tableUs t.regs.toc
      | .pkt _ | .frm | .accClr => q.data.toNat = t.regs.acc.toNat
      | .rd k => ∃ n, regNameOf k = some n ∧ t.regs.read n = some q.data) ∧
    (q.status = .illegal ∨ q.status = .seq ∨ q.status = .faulted → q.data = 0#32) ∧
    (q.status = .overshoot → q.data.toNat = t.regs.acc.toNat ∧
      (s.regs.AccInRange → 60001 ≤ q.data.toNat ∧ q.data.toNat ≤ 119999))

/-- Derived from 10_state.md R39: which command writes which register. -/
def Obligations.WriteMatrix : Prop :=
  ∀ (i : Instr) (s t : State), i.wf = true → exec i s = .next t → i ≠ .srst →
    t.pending = s.pending ∧
    ((i ≠ .crcInit ∧ ∀ b, i ≠ .crcByte b) → t.regs.crc = s.regs.crc) ∧
    ((∀ b, i ≠ .tocLd b) → t.regs.toc = s.regs.toc ∧ t.regs.tocv = s.regs.tocv) ∧
    ((∀ b, i ≠ .tocLd b) → (∀ f, i ≠ .fcbLd f) → t.regs.nframes = s.regs.nframes ∧ t.regs.nfv = s.regs.nfv) ∧
    (∀ b, i = .tocLd b → b.toNat % 4 = 3 → t.regs.nframes = s.regs.nframes) ∧
    ((∀ f, i ≠ .fcbLd f) → t.regs.vbr = s.regs.vbr ∧ t.regs.pad = s.regs.pad) ∧
    (i.gated = false ∨ i = .pkt true → t.regs.acc = s.regs.acc) ∧
    (i ≠ .frm → t.regs.overFlag = s.regs.overFlag) ∧
    (t.regs.illFlag = s.regs.illFlag) ∧
    ((∀ f, i ≠ .fcbLd f) → (∀ sd, i ≠ .pkt sd) → i ≠ .frm → (∀ k, i ≠ .rd k) → t.regs.seqFlag = s.regs.seqFlag)

/-- Derived from 20_memory.md R61: a command of the CRC unit and a command of the other units may be exchanged: the registers
after both are the same in either order, and so is each command's response. (RD 1 reads the CRC and SRST clears it.) -/
def Obligations.CrcStreamInterleaves : Prop :=
  ∀ (i j : Instr) (r : Regs), (i = .crcInit ∨ ∃ b, i = .crcByte b) →
    (j ≠ .crcInit ∧ (∀ b, j ≠ .crcByte b) ∧ j ≠ .rd 1#4 ∧ j ≠ .srst) →
    ∃ ti tij tj tji,
      exec i ⟨r, [], none⟩ = .next ti ∧ exec j ti = .next tij ∧
      exec j ⟨r, [], none⟩ = .next tj ∧ exec i tj = .next tji ∧
      tij.regs = tji.regs ∧ tij.rsp = tj.rsp ∧ tji.rsp = ti.rsp

/-! ### The whole machine -/

/-- 10_state.md R28 (the stickiness), derived: a sticky flag that is 1 stays 1 through every step that is not a reset. -/
def Obligations.FlagsAreSticky : Prop :=
  ∀ s t, step s = .next t → (∀ m rest, s.pending = m :: rest → m.resets = false) →
    (s.regs.overFlag = true → t.regs.overFlag = true) ∧ (s.regs.illFlag = true → t.regs.illFlag = true) ∧
    (s.regs.seqFlag = true → t.regs.seqFlag = true)

/-- 60_exceptions.md R168, derived: the fault line is OVER; it rises only in a step that responds OVERSHOOT and falls only at a
reset. -/
def Obligations.FaultLineFollowsOver : Prop :=
  (∀ s : State, s.faultLine = s.regs.overFlag) ∧
  (∀ s t, step s = .next t → s.faultLine = false → t.faultLine = true → ∃ q, t.rsp = some q ∧ q.status = .overshoot) ∧
  (∀ s t, step s = .next t → s.faultLine = true → t.faultLine = false →
    ∃ m rest, s.pending = m :: rest ∧ m.resets = true)

/-- The invariant of the registers (42_accumulator.md R140 P1, 10_state.md R23, R25) holds at reset. -/
def Obligations.ResetMeetsInvariant : Prop := State.reset.regs.Inv ∧ TrackInv State.reset.regs HostTrack.start

/-- 42_accumulator.md R140 P1, 10_state.md R23: every step keeps the range of ACC, and a frame count belongs to its TOC. -/
def Obligations.StepKeepsInvariant : Prop := ∀ s t, s.regs.Inv → step s = .next t → t.regs.Inv

/-- Derived from 42_accumulator.md R137: every step keeps ACC on the grid of 2500 µs, at most 57500 while OVER = 0 and between
62500 and 117500 while OVER = 1; the reset state is on it. -/
def Obligations.AccStaysOnGrid : Prop :=
  State.reset.regs.AccOnGrid ∧ ∀ s t, s.regs.AccOnGrid → step s = .next t → t.regs.AccOnGrid

/-- 42_accumulator.md R140 P2, derived: EMIT is raised only by a PKT or FRM whose sum is exactly 60000, and leaves ACC = 0. -/
def Obligations.EmitOnlyAtExactBudget : Prop :=
  ∀ (s t : State) (w : CmdWord) (rest : List PortMove) (q : Response),
    s.pending = .command w :: rest → step s = .next t → t.rsp = some q → q.ev.emit = true →
    t.regs.acc = 0#17 ∧
    ((decode w = .command (.pkt false) ∧ s.regs.acc.toNat + s.regs.nframes.toNat * tableUs s.regs.toc = 60000) ∨
     (decode w = .command .frm ∧ s.regs.acc.toNat + tableUs s.regs.toc = 60000))

/-- 42_accumulator.md R140 P3, 10_state.md R34, derived: of a host that obeys the events, every step keeps UNIT_US = ACC while
OVER = 0, and every unit it has emitted is exactly 60000 µs long. -/
def Obligations.EmittedUnitsAreExact : Prop :=
  ∀ s t h, TrackInv s.regs h → step s = .next t → TrackInv t.regs (h.after s t)

/-- 42_accumulator.md R140 P4, derived: once OVER = 1, through any number of steps without a reset, OVER and ACC stay and no
response raises an event. -/
def Obligations.OvershotIsFatal : Prop :=
  ∀ (n : Nat) (s t : State), s.regs.overFlag = true → (∀ q, s.rsp = some q → q.ev = evNone) →
    (∀ m ∈ s.pending.take n, m.resets = false) → runSteps n s = .next t →
    t.regs.overFlag = true ∧ t.regs.acc = s.regs.acc ∧ ∀ q, t.rsp = some q → q.ev = evNone

/-- 42_accumulator.md R140 P5 and P6, derived: PKT never sets OVER, only FRM does; ACC and OVER are not affected by the commands of
the other units (SRST apart) nor by a command that responds ILLEGAL or SEQ. -/
def Obligations.AccumulatorIsUndisturbed : Prop :=
  ∀ (s t : State) (w : CmdWord) (rest : List PortMove) (q : Response),
    s.pending = .command w :: rest → step s = .next t → t.rsp = some q →
    (s.regs.overFlag = false → t.regs.overFlag = true → decode w = .command .frm) ∧
    ((∀ i, decode w = .command i → i.gated = false ∧ i ≠ .srst) →
      t.regs.acc = s.regs.acc ∧ t.regs.overFlag = s.regs.overFlag) ∧
    (q.status = .illegal ∨ q.status = .seq → t.regs.acc = s.regs.acc ∧ t.regs.overFlag = s.regs.overFlag)
end

