-- ==== Sys2Proof/Laws/State.lean ====
section
/-! SUPPORT. One lemma per field per named update of the state, so that no proof unfolds a record update. -/

namespace Sys2Proof.Machine

variable (s : State)

@[simp] theorem State.writeCrc_regs (v) : (s.writeCrc v).regs = { s.regs with crc := v } := rfl
@[simp] theorem State.writeCrc_pending (v) : (s.writeCrc v).pending = s.pending := rfl
@[simp] theorem State.writeCrc_rsp (v) : (s.writeCrc v).rsp = s.rsp := rfl

@[simp] theorem State.writeToc_regs (b) : (s.writeToc b).regs = { s.regs with toc := b, tocv := true } := rfl
@[simp] theorem State.writeToc_pending (b) : (s.writeToc b).pending = s.pending := rfl
@[simp] theorem State.writeToc_rsp (b) : (s.writeToc b).rsp = s.rsp := rfl

@[simp] theorem State.writeCount_regs (n) : (s.writeCount n).regs = { s.regs with nframes := n, nfv := true } := rfl
@[simp] theorem State.writeCount_pending (n) : (s.writeCount n).pending = s.pending := rfl
@[simp] theorem State.writeCount_rsp (n) : (s.writeCount n).rsp = s.rsp := rfl

@[simp] theorem State.dropCount_regs : s.dropCount.regs = { s.regs with nfv := false } := rfl
@[simp] theorem State.dropCount_pending : s.dropCount.pending = s.pending := rfl
@[simp] theorem State.dropCount_rsp : s.dropCount.rsp = s.rsp := rfl

@[simp] theorem State.writeFcbFlags_regs (p v) : (s.writeFcbFlags p v).regs = { s.regs with pad := p, vbr := v } := rfl
@[simp] theorem State.writeFcbFlags_pending (p v) : (s.writeFcbFlags p v).pending = s.pending := rfl
@[simp] theorem State.writeFcbFlags_rsp (p v) : (s.writeFcbFlags p v).rsp = s.rsp := rfl

@[simp] theorem State.writeAcc_regs (v) : (s.writeAcc v).regs = { s.regs with acc := BitVec.ofNat 17 v } := rfl
@[simp] theorem State.writeAcc_pending (v) : (s.writeAcc v).pending = s.pending := rfl
@[simp] theorem State.writeAcc_rsp (v) : (s.writeAcc v).rsp = s.rsp := rfl

@[simp] theorem State.resetRegs_regs : s.resetRegs.regs = Regs.reset := rfl
@[simp] theorem State.resetRegs_pending : s.resetRegs.pending = s.pending := rfl
@[simp] theorem State.resetRegs_rsp : s.resetRegs.rsp = s.rsp := rfl

@[simp] theorem State.present_regs (w) : (s.present w).regs = s.regs := rfl
@[simp] theorem State.present_pending (w) : (s.present w).pending = .command w :: s.pending := rfl
@[simp] theorem State.present_rsp (w) : (s.present w).rsp = s.rsp := rfl

@[simp] theorem State.reset_regs : State.reset.regs = Regs.reset := rfl
@[simp] theorem State.reset_pending : State.reset.pending = [] := rfl
@[simp] theorem State.reset_rsp : State.reset.rsp = none := rfl

@[simp] theorem Regs.recordFault_illegal (r : Regs) : r.recordFault .illegal = { r with illFlag := true } := rfl
@[simp] theorem Regs.recordFault_seq (r : Regs) : r.recordFault .seq = { r with seqFlag := true } := rfl
@[simp] theorem Regs.recordFault_faulted (r : Regs) : r.recordFault .faulted = r := rfl
@[simp] theorem Regs.recordFault_overshoot (r : Regs) : r.recordFault .overshoot = { r with overFlag := true } := rfl

/-- Reading the checksum reads `CRC`: `CRC_XOROUT` is zero (40_crc.md R105). -/
@[simp] theorem Regs.checksum_eq (r : Regs) : r.checksum = r.crc := by simp [Regs.checksum, Config.crcXorOut]

end Sys2Proof.Machine
end

