-- ==== Sys2Proof/Laws/Crc.lean ====
section
/-! SUPPORT. The divider's shift is linear over xor, and shifts compose. -/

namespace Sys2Proof.Machine

/-- The shift with the feedback written as a mask: no case split on the top bit. -/
theorem crcShift_eq (r : BitVec 32) : crcShift r = (r <<< 1) ^^^ (if r.msb then Config.poly else 0#32) := by
  unfold crcShift; split <;> simp

/-- One shift is linear (40_crc.md R101). -/
theorem crcShift_xor (a b : BitVec 32) : crcShift (a ^^^ b) = crcShift a ^^^ crcShift b := by
  simp only [crcShift_eq, BitVec.msb_xor, BitVec.shiftLeft_xor_distrib]
  cases a.msb <;> cases b.msb <;> simp
  · ac_rfl
  · ac_rfl
  · rw [BitVec.xor_assoc, BitVec.xor_comm (b <<< 1), ← BitVec.xor_assoc Config.poly, BitVec.xor_self, BitVec.zero_xor]

/-- Any number of shifts is linear. -/
theorem crcShifts_xor (n : Nat) (a b : BitVec 32) : crcShifts n (a ^^^ b) = crcShifts n a ^^^ crcShifts n b := by
  induction n generalizing a b with
  | zero => rfl
  | succ n ih => simp [crcShifts, crcShift_xor, ih]

@[simp] theorem crcShifts_zero (r : BitVec 32) : crcShifts 0 r = r := rfl
theorem crcShifts_succ (n : Nat) (r : BitVec 32) : crcShifts (n + 1) r = crcShifts n (crcShift r) := rfl

/-- Feeding one bit is a shift of the register with the bit xored into its top (40_crc.md R102). -/
theorem crcSerialBit_eq (crc : BitVec 32) (bit : Bool) :
    crcSerialBit crc bit = crcShift (crc ^^^ (if bit then 0x80000000#32 else 0#32)) := by
  cases bit
  · simp [crcSerialBit, crcShift]
  · have hm : (0x80000000#32).msb = true := by decide
    have hs : 0x80000000#32 <<< 1 = 0#32 := by decide
    simp only [crcSerialBit, crcShift, BitVec.msb_xor, if_true, hm, BitVec.shiftLeft_xor_distrib, hs, BitVec.xor_zero]

/-- A stream fed in two parts (40_crc.md R107, "incremental"). -/
theorem crcStream_cons (b : Byte) (bs : List Byte) (c : BitVec 32) :
    crcStream (b :: bs) c = crcStream bs (crcUpdate c b) := rfl

@[simp] theorem crcStream_nil (c : BitVec 32) : crcStream [] c = c := rfl

end Sys2Proof.Machine
end

