-- ==== Sys2Proof/Laws/Decode.lean ====
section
/-! SUPPORT. The three fields determine a command word and are determined by it. -/

namespace Sys2Proof

@[simp] theorem opField_cmdWord (op md : BitVec 4) (imm : Byte) : opField (cmdWord op md imm) = op := by
  apply BitVec.eq_of_getLsbD_eq
  intro k hk
  simp only [opField, cmdWord, BitVec.getLsbD_extractLsb', BitVec.getLsbD_append, hk, decide_true, Bool.true_and]
  split <;> first | omega | skip
  split <;> first | omega | (congr 1; omega)

@[simp] theorem modField_cmdWord (op md : BitVec 4) (imm : Byte) : modField (cmdWord op md imm) = md := by
  apply BitVec.eq_of_getLsbD_eq
  intro k hk
  simp only [modField, cmdWord, BitVec.getLsbD_extractLsb', BitVec.getLsbD_append, hk, decide_true, Bool.true_and]
  split <;> first | omega | skip
  split <;> first | omega | (congr 1; omega)

@[simp] theorem immField_cmdWord (op md : BitVec 4) (imm : Byte) : immField (cmdWord op md imm) = imm := by
  apply BitVec.eq_of_getLsbD_eq
  intro k hk
  simp only [immField, cmdWord, BitVec.getLsbD_extractLsb', BitVec.getLsbD_append, hk, decide_true, Bool.true_and]
  split <;> first | omega | (congr 1; omega)

/-- A word is its three fields. -/
theorem cmdWord_fields (w : CmdWord) : cmdWord (opField w) (modField w) (immField w) = w := by
  apply BitVec.eq_of_getLsbD_eq
  intro k hk
  simp only [opField, modField, immField, cmdWord, BitVec.getLsbD_extractLsb', BitVec.getLsbD_append]
  split
  · simp [*]
  · split
    · rw [decide_eq_true (by omega)]
      simp; congr 1; omega
    · rw [decide_eq_true (by omega)]
      simp; congr 1; omega

/-- The fields as numbers. -/
theorem opField_toNat (w : CmdWord) : (opField w).toNat = w.toNat / 4096 := by
  have := w.isLt
  simp [opField, BitVec.extractLsb', Nat.shiftRight_eq_div_pow]; omega

theorem modField_toNat (w : CmdWord) : (modField w).toNat = w.toNat / 256 % 16 := by
  simp [modField, BitVec.extractLsb', Nat.shiftRight_eq_div_pow]

theorem immField_toNat (w : CmdWord) : (immField w).toNat = w.toNat % 256 := by
  simp [immField, BitVec.extractLsb']

/-- Masking a word masks its fields. -/
theorem and_eq_iff_fields (w m v : CmdWord) :
    w &&& m = v ↔
      opField w &&& opField m = opField v ∧ modField w &&& modField m = modField v ∧
      immField w &&& immField m = immField v := by
  have key (a b x y : BitVec 4) (c z : Byte) :
      cmdWord a b c &&& cmdWord x y z = cmdWord (a &&& x) (b &&& y) (c &&& z) :=
    (BitVec.and_append (x₁ := a ++ b) (x₂ := x ++ y)).trans (by rw [BitVec.and_append]; rfl)
  conv_lhs => rw [← cmdWord_fields w, ← cmdWord_fields m, key]
  constructor
  · rintro rfl; simp
  · rintro ⟨h1, h2, h3⟩; rw [h1, h2, h3, cmdWord_fields]

end Sys2Proof
end

