-- ==== Sys2Proof/Laws/Ops.lean ====
section
/-! SUPPORT. What each shared operation can do, said once: responding, raising a fault, resetting, fetching, the durations and the registers' reading. -/

namespace Sys2Proof.Machine

/-! ### Responding, raising, resetting -/

theorem State.respond_next {s t : State} {st ev d} :
    s.respond st ev d = .next t ↔ t = { s with rsp := some ⟨st, ev, d⟩ } := by
  simp [State.respond, eq_comm]

theorem State.raise_next {s t : State} {f d} :
    s.raise f d = .next t ↔ t = { s with regs := s.regs.recordFault f, rsp := some ⟨f.status, evNone, d⟩ } := by
  simp [State.raise, State.respond, eq_comm]

theorem illegalWord_next {s t : State} :
    illegalWord s = .next t ↔
      t = { s with regs := { s.regs with illFlag := true }, rsp := some ⟨.illegal, evNone, 0#32⟩ } := by
  simp [illegalWord, State.raise_next, BlockFault.status]

theorem hardReset_next {s t : State} :
    hardReset s = .next t ↔ t = { regs := Regs.reset, pending := s.pending, rsp := none } := by
  simp [hardReset, State.resetRegs, eq_comm]

theorem holdState_next {s t : State} : holdState s = .next t ↔ t = s := by
  simp [holdState, eq_comm]

/-! ### Fetching -/

theorem fetch_idle {s : State} (h : s.pending = []) : fetch s = .idle := by
  simp [fetch, h]

theorem fetch_reset {s : State} {rest} (h : s.pending = .hardReset :: rest) :
    fetch s = .reset { s with pending := rest } := by
  simp [fetch, h]

theorem fetch_run {s : State} {w rest i} (h : s.pending = .command w :: rest) (hd : decode w = .command i) :
    fetch s = .run i { s with pending := rest } := by
  simp [fetch, h, hd]

theorem fetch_illegal {s : State} {w rest e} (h : s.pending = .command w :: rest) (hd : decode w = .illegal e) :
    fetch s = .illegal { s with pending := rest } := by
  simp [fetch, h, hd]

/-! ### Fields and durations -/

theorem tocCode_toNat (toc : Byte) : (tocCode toc).toNat = toc.toNat % 4 := by
  simp [tocCode, BitVec.extractLsb']

theorem tocConfig_toNat (toc : Byte) : (tocConfig toc).toNat = toc.toNat / 8 := by
  have := toc.isLt
  simp [tocConfig, BitVec.extractLsb', Nat.shiftRight_eq_div_pow]; omega

theorem tocCode_eq_three (toc : Byte) : tocCode toc = 3#2 ↔ toc.toNat % 4 = 3 := by
  rw [← BitVec.toNat_inj, tocCode_toNat]; rfl

theorem tocCode_eq_zero (toc : Byte) : tocCode toc = 0#2 ↔ toc.toNat % 4 = 0 := by
  rw [← BitVec.toNat_inj, tocCode_toNat]; rfl

/-- A duration is between 2500 and 60000 µs and a multiple of 2500 (41_toc.md R113). -/
theorem frameUsOf_bounds (c : BitVec 5) : 2500 ≤ frameUsOf c ∧ frameUsOf c ≤ 60000 ∧ frameUsOf c % 2500 = 0 := by
  revert c; decide

theorem Regs.frameUs_bounds (r : Regs) : 2500 ≤ r.frameUs ∧ r.frameUs ≤ 60000 ∧ r.frameUs % 2500 = 0 :=
  frameUsOf_bounds _

/-- `TOTAL_US` fits 22 bits and is a multiple of 2500 (41_toc.md R116). -/
theorem Regs.totalUs_bounds (r : Regs) : r.totalUs ≤ 3780000 ∧ r.totalUs % 2500 = 0 := by
  obtain ⟨-, hle, hmod⟩ := r.frameUs_bounds
  refine ⟨Nat.mul_le_mul (show r.nframes.toNat ≤ 63 by omega) hle, ?_⟩
  simp [Regs.totalUs, Nat.mul_mod, hmod]

/-- The stored value of a sum below 2^17 is the sum. -/
theorem acc_ofNat {n : Nat} (h : n < 131072) : (BitVec.ofNat 17 n).toNat = n := by
  simp [BitVec.toNat_ofNat, Nat.mod_eq_of_lt h]

/-! ### The needs -/

theorem Regs.wantsFcb_iff (r : Regs) : r.wantsFcb = true ↔ r.tocv = true ∧ r.toc.toNat % 4 = 3 := by
  simp [Regs.wantsFcb, tocCode_eq_three]

theorem Regs.hasFcb_iff (r : Regs) :
    r.hasFcb = true ↔ r.tocv = true ∧ r.nfv = true ∧ r.toc.toNat % 4 = 3 := by
  simp [Regs.hasFcb, tocCode_eq_three, and_assoc]

/-! ### Reading a register -/

/-- A register reads as none exactly when the need of 10_state.md R30 is not met. -/
theorem Regs.read_eq_none (r : Regs) (n : RegName) :
    r.read n = none ↔
      match n with
      | .status | .crc | .acc => False
      | .toc | .config | .stereo | .code | .toc1 | .frameUs => r.hasToc = false
      | .nframes | .totalUs => r.hasCount = false
      | .fcbf => r.hasFcb = false := by
  cases n <;> simp [Regs.read]

/-- Every index up to 11 names a register (10_state.md R30). -/
theorem regNameOf_isSome (k : BitVec 4) : (regNameOf k).isSome = regIndexOk k := by
  revert k; decide

end Sys2Proof.Machine
end

