-- ==== Sys2Proof/Laws/Exec.lean ====
section
/-! SUPPORT. What each command can do, said once: every meaning ends in an answer, given register by register; and what a step can do. -/

namespace Sys2Proof.Machine

/-- Answers with a next state, the registers, the response and the rest of the port being as given. -/
theorem State.answer_next {s t : State} {r st ev d} :
    s.answer r st ev d = .next t ↔ t = { regs := r, pending := s.pending, rsp := some ⟨st, ev, d⟩ } := by
  simp [State.answer, eq_comm]

@[simp] theorem exec_nop (s : State) : exec .nop s = s.answer s.regs .ok evNone 0#32 := rfl

@[simp] theorem exec_crcInit (s : State) :
    exec .crcInit s = s.answer { s.regs with crc := Config.crcInitValue } .ok evNone Config.crcInitValue := by
  simp [exec, execCrcInit, State.answer, State.respond]

@[simp] theorem exec_crcByte (b : Byte) (s : State) :
    exec (.crcByte b) s =
      s.answer { s.regs with crc := crcUpdate s.regs.crc b } .ok evNone (crcUpdate s.regs.crc b) := by
  simp [exec, execCrcByte, State.answer, State.respond]

theorem exec_tocLd (b : Byte) (s : State) :
    exec (.tocLd b) s =
      s.answer
        { s.regs with
          toc := b, tocv := true, nfv := decide (tocCode b ≠ 3#2),
          nframes := if tocCode b = 3#2 then s.regs.nframes else fixedCount (tocCode b) }
        .ok evNone (BitVec.ofNat 32 (frameUsOf (tocConfig b))) := by
  by_cases h : tocCode b = 3#2 <;> simp [exec, execTocLd, State.answer, State.respond, h]

theorem exec_fcbLd (f : Byte) (s : State) :
    exec (.fcbLd f) s =
      if s.regs.wantsFcb then
        s.answer
          { s.regs with nframes := fcbCount f, nfv := true, pad := fcbPad f, vbr := fcbVbr f }
          .ok evNone (BitVec.ofNat 32 ((fcbCount f).toNat * s.regs.frameUs))
      else s.answer { s.regs with seqFlag := true } .seq evNone 0#32 := rfl

theorem exec_pkt (sd : Bool) (s : State) :
    exec (.pkt sd) s =
      if s.regs.overFlag then s.answer s.regs .faulted evNone 0#32
      else if s.regs.hasCount then
        if sd = false ∧ s.regs.acc.toNat + s.regs.totalUs ≤ 60000 then
          if s.regs.acc.toNat + s.regs.totalUs = 60000 then
            s.answer { s.regs with acc := 0#17 } .ok evAppendPktEmit 0#32
          else
            s.answer { s.regs with acc := BitVec.ofNat 17 (s.regs.acc.toNat + s.regs.totalUs) } .ok evAppendPkt
              (BitVec.ofNat 32 (s.regs.acc.toNat + s.regs.totalUs))
        else s.answer s.regs .ok evSplit (s.regs.acc.setWidth 32)
      else s.answer { s.regs with seqFlag := true } .seq evNone 0#32 := rfl

theorem exec_frm (s : State) :
    exec .frm s =
      if s.regs.overFlag then s.answer s.regs .faulted evNone 0#32
      else if s.regs.tocv then
        if s.regs.acc.toNat + s.regs.frameUs < 60000 then
          s.answer { s.regs with acc := BitVec.ofNat 17 (s.regs.acc.toNat + s.regs.frameUs) } .ok evAppendFrm
            (BitVec.ofNat 32 (s.regs.acc.toNat + s.regs.frameUs))
        else if s.regs.acc.toNat + s.regs.frameUs = 60000 then
          s.answer { s.regs with acc := 0#17 } .ok evAppendFrmEmit 0#32
        else
          s.answer
            { s.regs with acc := BitVec.ofNat 17 (s.regs.acc.toNat + s.regs.frameUs), overFlag := true }
            .overshoot evNone ((BitVec.ofNat 17 (s.regs.acc.toNat + s.regs.frameUs)).setWidth 32)
      else s.answer { s.regs with seqFlag := true } .seq evNone 0#32 := rfl

theorem exec_accClr (s : State) :
    exec .accClr s =
      if s.regs.overFlag then s.answer s.regs .faulted evNone 0#32
      else s.answer { s.regs with acc := 0#17 } .ok evNone 0#32 := rfl

theorem exec_rd (k : BitVec 4) (s : State) :
    exec (.rd k) s =
      match regNameOf k with
      | none => s.answer { s.regs with illFlag := true } .illegal evNone 0#32
      | some n =>
        match s.regs.read n with
        | some v => s.answer s.regs .ok evNone v
        | none => s.answer { s.regs with seqFlag := true } .seq evNone 0#32 := rfl

@[simp] theorem exec_srst (s : State) : exec .srst s = s.answer Regs.reset .ok evNone 0#32 := rfl

/-- An answer with a response, taken apart. -/
theorem State.answer_rsp {s t : State} {r st ev d q} (h : s.answer r st ev d = .next t) (hq : t.rsp = some q) :
    t = { regs := r, pending := s.pending, rsp := some ⟨st, ev, d⟩ } ∧ q = ⟨st, ev, d⟩ := by
  rw [State.answer_next] at h; subst h; simp at hq; exact ⟨rfl, hq.symm⟩

/-- What a command answers depends on the registers alone: not on the host's later moves and not on the last response. -/
theorem exec_answers (i : Instr) (r : Regs) :
    ∃ r' st ev d, ∀ s : State, s.regs = r → exec i s = s.answer r' st ev d := by
  cases i with
  | nop => exact ⟨_, .ok, evNone, _, fun s hs => by rw [exec_nop, hs]⟩
  | crcInit => exact ⟨_, .ok, evNone, _, fun s hs => by rw [exec_crcInit, hs]⟩
  | crcByte b => exact ⟨_, .ok, evNone, _, fun s hs => by rw [exec_crcByte, hs]⟩
  | tocLd b => exact ⟨_, .ok, evNone, _, fun s hs => by rw [exec_tocLd, hs]⟩
  | srst => exact ⟨_, .ok, evNone, _, fun s _ => exec_srst s⟩
  | fcbLd f =>
    by_cases h : r.wantsFcb
    · exact ⟨_, .ok, evNone, _, fun s hs => by rw [exec_fcbLd, hs, if_pos h]⟩
    · exact ⟨_, .seq, evNone, _, fun s hs => by rw [exec_fcbLd, hs, if_neg h]⟩
  | accClr =>
    by_cases h : r.overFlag
    · exact ⟨_, .faulted, evNone, _, fun s hs => by rw [exec_accClr, hs, if_pos h]⟩
    · exact ⟨_, .ok, evNone, _, fun s hs => by rw [exec_accClr, hs, if_neg h]⟩
  | pkt sd =>
    by_cases ho : r.overFlag
    · exact ⟨_, .faulted, evNone, _, fun s hs => by rw [exec_pkt, hs, if_pos ho]⟩
    by_cases hn : r.hasCount
    · by_cases hf : sd = false ∧ r.acc.toNat + r.totalUs ≤ 60000
      · by_cases he : r.acc.toNat + r.totalUs = 60000
        · exact ⟨_, .ok, evAppendPktEmit, _, fun s hs => by rw [exec_pkt, hs, if_neg ho, if_pos hn, if_pos hf, if_pos he]⟩
        · exact ⟨_, .ok, evAppendPkt, _, fun s hs => by rw [exec_pkt, hs, if_neg ho, if_pos hn, if_pos hf, if_neg he]⟩
      · exact ⟨_, .ok, evSplit, _, fun s hs => by rw [exec_pkt, hs, if_neg ho, if_pos hn, if_neg hf]⟩
    · exact ⟨_, .seq, evNone, _, fun s hs => by rw [exec_pkt, hs, if_neg ho, if_neg hn]⟩
  | frm =>
    by_cases ho : r.overFlag
    · exact ⟨_, .faulted, evNone, _, fun s hs => by rw [exec_frm, hs, if_pos ho]⟩
    by_cases hn : r.tocv
    · by_cases hl : r.acc.toNat + r.frameUs < 60000
      · exact ⟨_, .ok, evAppendFrm, _, fun s hs => by rw [exec_frm, hs, if_neg ho, if_pos hn, if_pos hl]⟩
      · by_cases he : r.acc.toNat + r.frameUs = 60000
        · exact ⟨_, .ok, evAppendFrmEmit, _, fun s hs => by rw [exec_frm, hs, if_neg ho, if_pos hn, if_neg hl, if_pos he]⟩
        · exact ⟨_, .overshoot, evNone, _, fun s hs => by rw [exec_frm, hs, if_neg ho, if_pos hn, if_neg hl, if_neg he]⟩
    · exact ⟨_, .seq, evNone, _, fun s hs => by rw [exec_frm, hs, if_neg ho, if_neg hn]⟩
  | rd k =>
    rcases hk : regNameOf k with _ | n
    · exact ⟨_, .illegal, evNone, _, fun s hs => by simp only [exec_rd, hs, hk]; rfl⟩
    · rcases hv : r.read n with _ | v
      · exact ⟨_, .seq, evNone, _, fun s hs => by simp only [exec_rd, hs, hk, hv]; rfl⟩
      · exact ⟨_, .ok, evNone, _, fun s hs => by simp only [exec_rd, hs, hk, hv]; rfl⟩

/-- Every command responds. -/
theorem exec_rsp {i : Instr} {s t : State} (h : exec i s = .next t) : ∃ q, t.rsp = some q := by
  obtain ⟨r, st, ev, d, hx⟩ := exec_answers i s.regs
  rw [hx _ rfl, State.answer_next] at h; subst h; exact ⟨_, rfl⟩

/-! ### The durations of the table -/

/-- The formula of 41_toc.md R113 gives its table. -/
theorem tableUs_eq (toc : Byte) : tableUs toc = frameUsOf (tocConfig toc) := by revert toc; decide

theorem Regs.frameUs_eq (r : Regs) : r.frameUs = tableUs r.toc := (tableUs_eq _).symm

theorem Regs.totalUs_eq (r : Regs) : r.totalUs = r.nframes.toNat * tableUs r.toc := by rw [← r.frameUs_eq]; rfl

/-! ### What a step can do -/

theorem step_idle {s : State} (h : s.pending = []) : step s = .next s := by
  simp [step, fetch_idle h, holdState]

theorem step_reset {s : State} {rest} (h : s.pending = .hardReset :: rest) :
    step s = .next { regs := Regs.reset, pending := rest, rsp := none } := by
  simp [step, fetch_reset h, hardReset, State.resetRegs]

theorem step_illegal {s : State} {w rest e} (h : s.pending = .command w :: rest) (hd : decode w = .illegal e) :
    step s = State.answer { s with pending := rest } { s.regs with illFlag := true } .illegal evNone 0#32 := by
  simp [step, fetch_illegal h hd, illegalWord, State.raise, State.respond, State.answer, BlockFault.status]

/-- The inversion of a step: nothing stands on the port, or `rst`, or an illegal word, or a command that `exec` runs from
the state whose port holds the later moves. -/
theorem step_cases {s t : State} (h : step s = .next t) :
    (s.pending = [] ∧ t = s) ∨
    (∃ rest, s.pending = .hardReset :: rest ∧ t = { regs := Regs.reset, pending := rest, rsp := none }) ∨
    (∃ w rest e, s.pending = .command w :: rest ∧ decode w = .illegal e ∧
      t = { regs := { s.regs with illFlag := true }, pending := rest, rsp := some ⟨.illegal, evNone, 0#32⟩ }) ∨
    (∃ w rest i, s.pending = .command w :: rest ∧ decode w = .command i ∧
      exec i { s with pending := rest } = .next t) := by
  rcases hp : s.pending with _ | ⟨m, rest⟩
  · rw [step_idle hp] at h; cases h; exact .inl ⟨rfl, rfl⟩
  · cases m with
    | hardReset => rw [step_reset hp] at h; cases h; exact .inr (.inl ⟨rest, rfl, rfl⟩)
    | command w =>
      rcases hd : decode w with i | e
      · simp only [step, fetch_run hp hd] at h
        exact .inr (.inr (.inr ⟨w, rest, i, rfl, hd, h⟩))
      · rw [step_illegal hp hd, State.answer_next] at h
        exact .inr (.inr (.inl ⟨w, rest, e, rfl, hd, h⟩))

/-- A word on the port, legal or not, is answered; the later moves stand. -/
theorem step_command {s : State} {w rest} (h : s.pending = .command w :: rest) :
    ∃ r st ev d, step s = State.answer { s with pending := rest } r st ev d := by
  rcases hd : decode w with i | e
  · obtain ⟨r, st, ev, d, hx⟩ := exec_answers i s.regs
    exact ⟨r, st, ev, d, by simp only [step, fetch_run h hd]; exact hx _ rfl⟩
  · exact ⟨_, _, _, _, step_illegal h hd⟩

/-- A step of the machine on a list of words is `blockStep` on the first of them. -/
theorem step_portState (r : Regs) (w : CmdWord) (ws : List CmdWord) (rest : List PortMove) (q : Option Response) :
    step (portState r (w :: ws) rest q) = .next (portState (blockStep r w).1 ws rest (some (blockStep r w).2)) := by
  rcases hd : decode w with i | e
  · obtain ⟨r', st, ev, d, hx⟩ := exec_answers i r
    have hs (ws rest q) :
        step (portState r (w :: ws) rest q) = State.answer ⟨r, ws.map .command ++ rest, q⟩ r' st ev d := by
      simp only [step, fetch_run (s := portState r (w :: ws) rest q) (w := w) rfl hd]; exact hx _ rfl
    simp only [blockStep, hs]; rfl
  · simp only [blockStep, portState]
    rw [step_illegal (w := w) rfl hd, step_illegal (w := w) (rest := []) rfl hd]; rfl

end Sys2Proof.Machine
end

