-- ==== Sys2Proof/Laws/PerInstr.lean ====
section
/-! SUPPORT. The family EncodedFields: what the three fields of a command's word are, constructor by constructor. -/

namespace Sys2Proof.Laws.EncodedFields

/-- The word of a command holds its opcode, its modifier and its byte in the fields of 30_encoding.md R70. -/
def Statement (i : Instr) : Prop :=
  opField (encode i) = i.opcode ∧ modField (encode i) = i.modifier ∧ immField (encode i) = i.imm8

theorem of_cmdWord (i : Instr) : Statement i := by
  simp [Statement, encode]

theorem nop : Statement .nop := of_cmdWord _
theorem crcInit : Statement .crcInit := of_cmdWord _
theorem crcByte (b : Byte) : Statement (.crcByte b) := of_cmdWord _
theorem tocLd (b : Byte) : Statement (.tocLd b) := of_cmdWord _
theorem fcbLd (f : Byte) : Statement (.fcbLd f) := of_cmdWord _
theorem pkt (sd : Bool) : Statement (.pkt sd) := of_cmdWord _
theorem frm : Statement .frm := of_cmdWord _
theorem accClr : Statement .accClr := of_cmdWord _
theorem rd (r : BitVec 4) : Statement (.rd r) := of_cmdWord _
theorem srst : Statement .srst := of_cmdWord _

end Sys2Proof.Laws.EncodedFields
end

