-- ==== Sys2Proof/Tests/Slice0.lean ====
section
/-! SUPPORT. The model's own tests, their expected results from 95_test_vectors.md and the rules named beside them, and for every obligation with hypotheses named witnesses that meet them. -/

namespace Sys2Proof.Tests.Slice0

open Sys2Proof Sys2Proof.Machine

/-! ### Small states -/

/-- Registers with a packet loaded: the rest as after reset. -/
def loaded (toc : Byte) (nframes : BitVec 6) (acc : BitVec 17) (ov : Bool) : Regs :=
  { Regs.reset with toc := toc, tocv := true, nframes := nframes, nfv := true, acc := acc, overFlag := ov }

/-- Registers with a TOC whose frame count is not yet known. -/
def tocOnly (toc : Byte) (acc : BitVec 17) : Regs := { Regs.reset with toc := toc, tocv := true, acc := acc }

/-- A machine on whose port stand the given moves. -/
def onPort (r : Regs) (ms : List PortMove) : State := ⟨r, ms, none⟩

/-- A machine with nothing on its port. -/
def quiet (r : Regs) : State := onPort r []

/-- The next state. -/
def after : Result → State
  | .next t => t
  | .fault f => nomatch f
  | .refused _ => State.reset

/-- One step on one word. -/
def run1 (r : Regs) (w : CmdWord) : State := after (step (onPort r [.command w]))

/-- The response word, and `ACC` and `OVER` afterwards: the columns of 95_test_vectors.md section 4. -/
def columns (r : Regs) (w : CmdWord) : Option RspWord × Nat × Bool :=
  ((run1 r w).rsp.map Response.word, (run1 r w).regs.acc.toNat, (run1 r w).regs.overFlag)

/-! ### Well-formed terms: the one check is RD's index (30_encoding.md R74) -/

theorem test_wf_refuses_rd12 : (Instr.rd 12#4).wf = false := by decide
theorem test_wf_admits_rd11 : (Instr.rd 11#4).wf = true := by decide

/-! ### Decoding: words written out from 30_encoding.md R74 -/

theorem test_decode_nop : decode 0b0000_000000000000#16 = .command .nop := by decide
theorem test_decode_crc_init : decode 0b0001_000000000000#16 = .command .crcInit := by decide
theorem test_decode_crc_byte : decode 0b0010_0000_10000001#16 = .command (.crcByte 0x81#8) := by decide
theorem test_decode_toc_ld : decode 0b0011_0000_00011000#16 = .command (.tocLd 0x18#8) := by decide
theorem test_decode_fcb_ld : decode 0b0100_0000_11000011#16 = .command (.fcbLd 0xC3#8) := by decide
theorem test_decode_pkt : decode 0b0101_000_1_00000000#16 = .command (.pkt true) := by decide
theorem test_decode_frm : decode 0b0110_000000000000#16 = .command .frm := by decide
theorem test_decode_acc_clr : decode 0b0111_000000000000#16 = .command .accClr := by decide
theorem test_decode_rd : decode 0b1000_0110_00000000#16 = .command (.rd 6#4) := by decide
theorem test_decode_srst : decode 0b1001_000000000000#16 = .command .srst := by decide

/-- 95_test_vectors.md section 5.2. -/
theorem test_decode_illegal :
    ([0x0001#16, 0x0100#16, 0x1001#16, 0x2131#16, 0x3F00#16, 0x5200#16, 0x5001#16, 0x6100#16, 0x8C00#16, 0x8F00#16,
      0x8001#16, 0x9001#16, 0xA000#16, 0xFFFF#16].all fun w => (decode w).instr? == none) = true := by decide

/-- 95_test_vectors.md section 5.1, the other way. -/
theorem test_encode :
    [Instr.nop, .crcInit, .crcByte 0xFF, .tocLd 0x18, .fcbLd 0xC3, .pkt false, .pkt true, .frm, .accClr, .rd 11, .srst].map
      encode =
    [0x0000#16, 0x1000#16, 0x20FF#16, 0x3018#16, 0x40C3#16, 0x5000#16, 0x5100#16, 0x6000#16, 0x7000#16, 0x8B00#16,
      0x9000#16] := by decide

theorem test_table_word : decodeTableWord 16 0x8B00 = some (.rd 11#4) := by decide

theorem test_fetch_word :
    (after (step (State.reset.withFetchWord 16 0x3018))).rsp.map Response.word = some 0x000000EA60#40 := by decide

/-! ### One step each -/

theorem test_nop : run1 (loaded 0x08 1 20000 true) 0x0000 =
    ⟨loaded 0x08 1 20000 true, [], some ⟨.ok, evNone, 0⟩⟩ := by decide

theorem test_crc_init : (run1 { Regs.reset with crc := 0xD0F37027 } 0x1000).regs.crc = 0x00000000#32 := by decide

/-- 95_test_vectors.md section 2.2: the second byte of "123456789", done by hand there. -/
theorem test_crc_byte : (run1 { Regs.reset with crc := 0xD0F37027 } 0x2032).rsp.map Response.word =
    some 0x003F5B3A17#40 := by decide

/-- 95_test_vectors.md section 2.1: three rows of the table. -/
theorem test_crc_table :
    [128, 129, 130, 131, 132, 133, 134, 135].map (fun n => crcTable (BitVec.ofNat 8 n)) =
    [0x690CE0EE#32, 0x6DCDFD59#32, 0x608EDB80#32, 0x644FC637#32, 0x7A089632#32, 0x7EC98B85#32, 0x738AAD5C#32,
      0x774BB0EB#32] := by decide

/-- 95_test_vectors.md section 3.1: code 3 leaves the count without a value; code 0 gives 1. -/
theorem test_toc_ld : ((run1 (loaded 0x08 1 0 false) 0x301F).regs.nfv, (run1 Regs.reset 0x30FC).regs.nframes) =
    (false, 1#6) := by decide

/-- 95_test_vectors.md section 3.1: config 11 and 12, 15 and 16. -/
theorem test_toc_ld_durations :
    [0x3058#16, 0x3060#16, 0x3078#16, 0x3080#16].map (fun w => (run1 Regs.reset w).rsp.map Response.word) =
    [some 0x000000EA60#40, some 0x0000002710#40, some 0x0000004E20#40, some 0x00000009C4#40] := by decide

/-- 95_test_vectors.md section 3.2: 63 frames of 60 ms, padding and VBR. -/
theorem test_fcb_ld : run1 (tocOnly 0x1B 0) 0x40FF =
    ⟨{ loaded 0x1B 63 0 false with pad := true, vbr := true }, [], some ⟨.ok, evNone, 3780000⟩⟩ := by decide

/-- 95_test_vectors.md section 3.2: a code-0 TOC takes no control byte. -/
theorem test_fcb_ld_seq : run1 (loaded 0x08 1 0 false) 0x40C3 =
    ⟨{ loaded 0x08 1 0 false with seqFlag := true }, [], some ⟨.seq, evNone, 0⟩⟩ := by decide

/-- 95_test_vectors.md section 4.1. -/
theorem test_pkt :
    [columns (loaded 0x08 1 40000 false) 0x5000, columns (loaded 0x08 1 40000 false) 0x5100,
      columns (loaded 0x18 1 1 false) 0x5000, columns (loaded 0x83 0 59999 false) 0x5000] =
    [(some 0x0300000000#40, 0, false), (some 0x0800009C40#40, 40000, false), (some 0x0800000001#40, 1, false),
      (some 0x020000EA5F#40, 59999, false)] := by decide

/-- 95_test_vectors.md section 4.1. -/
theorem test_pkt_faults :
    [columns (tocOnly 0x08 30000) 0x5000, columns (loaded 0x08 1 80000 true) 0x5000] =
    [(some 0x2000000000#40, 30000, false), (some 0x3000000000#40, 80000, true)] := by decide

/-- 95_test_vectors.md section 4.2. -/
theorem test_frm :
    [columns (loaded 0x80 1 57499 false) 0x6000, columns (loaded 0x80 1 57500 false) 0x6000,
      columns (loaded 0x88 1 57500 false) 0x6000, columns (loaded 0x18 1 59999 false) 0x6000] =
    [(some 0x040000EA5F#40, 59999, false), (some 0x0500000000#40, 0, false), (some 0x400000F424#40, 62500, true),
      (some 0x400001D4BF#40, 119999, true)] := by decide

/-- 95_test_vectors.md section 4.2. -/
theorem test_frm_faults :
    [columns Regs.reset 0x6000, columns (loaded 0x08 1 80000 true) 0x6000] =
    [(some 0x2000000000#40, 0, false), (some 0x3000000000#40, 80000, true)] := by decide

/-- 95_test_vectors.md section 4.3. -/
theorem test_acc_clr :
    [columns (loaded 0x08 1 20000 false) 0x7000, columns (loaded 0x08 1 80000 true) 0x7000] =
    [(some 0x0000000000#40, 0, false), (some 0x3000000000#40, 80000, true)] := by decide

/-- 95_test_vectors.md section 5.3: after TOC_LD 0xFF and FCB_LD 0xC2, with SEQ set. -/
theorem test_rd :
    [0x8000#16, 0x8300#16, 0x8400#16, 0x8500#16, 0x8600#16, 0x8900#16, 0x8A00#16].map
      (fun w => (run1 { loaded 0xFF 2 0 false with pad := true, vbr := true, seqFlag := true } w).rsp.map Response.word) =
    [some 0x0000000304#40, some 0x000000001F#40, some 0x0000000001#40, some 0x0000000003#40, some 0x00000000FC#40,
      some 0x0000000003#40, some 0x0000009C40#40] := by decide

/-- 95_test_vectors.md section 5.3: from reset. -/
theorem test_rd_seq :
    [0x8200#16, 0x8900#16, 0x8B00#16].map
      (fun w => ((run1 Regs.reset w).rsp.map Response.word, (run1 Regs.reset w).regs.seqFlag)) =
    [(some 0x2000000000#40, true), (some 0x2000000000#40, true), (some 0x0000000000#40, false)] := by decide

theorem test_srst : run1 { loaded 0x08 1 80000 true with illFlag := true, crc := 1 } 0x9000 =
    ⟨State.reset.regs, [], some ⟨.ok, evNone, 0⟩⟩ := by decide

/-- 30_encoding.md R75: an illegal word in the fatal state. -/
theorem test_illegal : run1 (loaded 0x08 1 80000 true) 0x8C00 =
    ⟨{ loaded 0x08 1 80000 true with illFlag := true }, [], some ⟨.illegal, evNone, 0⟩⟩ := by decide

/-! ### Witnesses: the hypotheses of the obligations can be met

A witness for an obligation over steps gives the state before, and `after (step _)` as the state after. -/

/-- The fatal state. -/
def fatal : Regs := loaded 0x08 1 80000 true

theorem witness_ResetValues : (onPort fatal [.hardReset, .command 0x0000]).pending = .hardReset :: [.command 0x0000] := rfl

theorem witness_StepRunsDecodedCommand :
    ((onPort fatal [.command 0x8B00, .hardReset]).pending = .command 0x8B00 :: [.hardReset] ∧
      decode 0x8B00 = .command (.rd 11)) ∧
    State.reset.pending = [] := by decide

theorem witness_IllegalWordRaisesIllegal :
    (onPort fatal [.command 0x8C00]).pending = .command 0x8C00 :: [] ∧ decode 0x8C00 = .illegal .noSuchRegister := by decide

theorem witness_EveryStepGoesOn : (onPort fatal [.command 0xFFFF]).pending = .command 0xFFFF :: [] := rfl

theorem witness_ReservedWordsAreIllegal :
    (onPort fatal [.command 0x5200]).pending = .command 0x5200 :: [] ∧ decode 0x5200 = .illegal .reservedBits := by decide

/-- One word for each clause, at its boundary: the last illegal opcode's neighbour, `RD 12`, `PKT` with bit 9. -/
theorem witness_ReservedWordsAreIllegal_clauses :
    [0x9000#16, 0xA000#16, 0x0001#16, 0x4100#16, 0x5100#16, 0x5200#16, 0x8B00#16, 0x8C00#16].map
      (fun w => (decode w).instr?.isNone) = [false, true, true, true, false, true, false, true] := by decide

theorem witness_DecodeOfEncode : (Instr.rd 11).wf = true ∧ (Instr.crcByte 0xFF).wf = true := by decide

theorem witness_EncodeOfDecode : decode 0x8B00 = .command (.rd 11) ∧ decode 0x5100 = .command (.pkt true) := by decide

/-- A page of 26 bytes, the shortest that holds the CRC field: what is stored there is read back, least significant byte
at offset 22. -/
theorem witness_PageChecksumIsReproduced :
    26 ≤ (List.replicate 26 0#8).length ∧
    (patchCrc (List.replicate 26 0#8) 0x33EF56E6#32).drop 22 = [0xE6#8, 0x56#8, 0xEF#8, 0x33#8] := by decide

theorem witness_CrcLaws : [0x31#8, 0x32#8].length = [0x00#8, 0xFF#8].length := rfl

theorem witness_FcbLdLoadsControlByte :
    ((tocOnly 0x0B 0).tocv = true ∧ (tocOnly 0x0B 0).toc.toNat % 4 = 3) ∧
    Regs.reset.tocv = false ∧ (tocOnly 0x0A 0).toc.toNat % 4 ≠ 3 := by decide

/-- `FAULTED`; `SEQ` for either missing value; sums of exactly 60000, 59999 and 60001. -/
theorem witness_PktTakesPathDecision :
    fatal.overFlag = true ∧
    (Regs.reset.overFlag = false ∧ Regs.reset.tocv = false) ∧
    ((tocOnly 0x0B 0).overFlag = false ∧ (tocOnly 0x0B 0).nfv = false) ∧
    (let r := loaded 0x80 1 57500 false;
      r.overFlag = false ∧ r.tocv = true ∧ r.nfv = true ∧ r.acc.toNat + r.nframes.toNat * tableUs r.toc = 60000) ∧
    (let r := loaded 0x80 1 57499 false;
      r.overFlag = false ∧ r.tocv = true ∧ r.nfv = true ∧ r.acc.toNat + r.nframes.toNat * tableUs r.toc = 59999) ∧
    (let r := loaded 0x80 1 57501 false;
      r.overFlag = false ∧ r.tocv = true ∧ r.nfv = true ∧
        r.acc.toNat + r.nframes.toNat * tableUs r.toc = 60001) := by decide

theorem witness_SplitIsAPureQuery_response :
    exec (.pkt false) (quiet (loaded 0x80 1 57501 false)) =
      .next (after (exec (.pkt false) (quiet (loaded 0x80 1 57501 false)))) ∧
    (after (exec (.pkt false) (quiet (loaded 0x80 1 57501 false)))).rsp = some ⟨.ok, evSplit, 57501⟩ ∧
    evSplit.split = true := ⟨rfl, by decide, rfl⟩

theorem witness_SplitIsAPureQuery_always :
    (let r := loaded 0x83 25 0 false;
      r.overFlag = false ∧ r.tocv = true ∧ r.nfv = true ∧ 60000 < r.nframes.toNat * tableUs r.toc) ∧
    (let r := loaded 0x83 0 59999 false;
      r.AccInRange ∧ r.overFlag = false ∧ r.tocv = true ∧ r.nfv = true ∧ r.nframes = 0#6) := by decide

/-- `FAULTED`; `SEQ`; sums of 59999, 60000 and 60001; the largest sum in range, 119999. -/
theorem witness_FrmAccumulatesFrame :
    fatal.overFlag = true ∧ (Regs.reset.overFlag = false ∧ Regs.reset.tocv = false) ∧
    (let r := tocOnly 0x80 57499;
      r.overFlag = false ∧ r.tocv = true ∧ r.acc.toNat + tableUs r.toc = 59999) ∧
    (let r := tocOnly 0x80 57500;
      r.overFlag = false ∧ r.tocv = true ∧ r.acc.toNat + tableUs r.toc = 60000) ∧
    (let r := tocOnly 0x80 57501;
      r.overFlag = false ∧ r.tocv = true ∧ r.acc.toNat + tableUs r.toc = 60001 ∧ r.AccInRange) ∧
    (let r := tocOnly 0x18 59999;
      r.overFlag = false ∧ r.tocv = true ∧ r.acc.toNat + tableUs r.toc = 119999 ∧ r.AccInRange) := by decide

/-- A state in which `FRM` overshoots by the most, and one in which it overshoots by 1 µs. -/
theorem witness_OvershootValueIsTheSum :
    (tocOnly 0x18 59999).AccInRange ∧
    exec .frm (quiet (tocOnly 0x18 59999)) = .next (after (exec .frm (quiet (tocOnly 0x18 59999)))) ∧
    (after (exec .frm (quiet (tocOnly 0x18 59999)))).rsp = some ⟨.overshoot, evNone, 119999⟩ ∧
    (after (exec .frm (quiet (tocOnly 0x18 1)))).rsp = some ⟨.overshoot, evNone, 60001⟩ ∧
    (∀ m ∈ [PortMove.command 0x7000, .command 0xFFFF, .hardReset].take 2, m.resets = false) :=
  ⟨by decide, rfl, by decide, by decide, by decide⟩

theorem witness_AccClrAbandonsUnit : fatal.overFlag = true ∧ (tocOnly 0x08 59999).overFlag = false := by decide

/-- Two frames of 20 ms from an empty unit; one of 2.5 ms up to 59999; none at all. -/
theorem witness_FrmRunAddsUp :
    ((tocOnly 0x08 0).overFlag = false ∧ (tocOnly 0x08 0).tocv = true ∧
      (tocOnly 0x08 0).acc.toNat + 2 * tableUs (tocOnly 0x08 0).toc < 60000) ∧
    (tocOnly 0x80 57499).acc.toNat + 1 * tableUs (tocOnly 0x80 57499).toc = 59999 ∧
    (tocOnly 0x80 59999).acc.toNat + 0 * tableUs (tocOnly 0x80 59999).toc < 60000 := by decide

/-- A state meets the hypotheses that all clauses of `FlushTransitions` share. -/
def metBy (i : Instr) (r : Regs) : Prop :=
  r.AccInRange ∧ i.wf = true ∧ exec i (quiet r) = .next (after (exec i (quiet r))) ∧
    ∃ q, (after (exec i (quiet r))).rsp = some q

theorem metBy_of (i : Instr) (r : Regs) (h : r.AccInRange) (hw : i.wf = true) : metBy i r := by
  obtain ⟨r', st, ev, d, hx⟩ := exec_answers i r
  exact ⟨h, hw, by rw [hx _ rfl]; rfl, ⟨_, by rw [hx _ rfl]; rfl⟩⟩

/-- PKT: the sums 0, 2500 (just above 0 on the grid), 1, 59999, 60000, 60001. -/
theorem witness_FlushTransitions_pkt :
    ([loaded 0x83 0 0 false, loaded 0x80 1 0 false, loaded 0x83 0 1 false, loaded 0x80 1 57499 false,
      loaded 0x80 1 57500 false, loaded 0x80 1 57501 false].map fun r => r.acc.toNat + r.totalUs) =
      [0, 2500, 1, 59999, 60000, 60001] ∧
    metBy (.pkt false) (loaded 0x83 0 0 false) ∧ metBy (.pkt false) (loaded 0x80 1 57499 false) ∧
    metBy (.pkt false) (loaded 0x80 1 57500 false) ∧ metBy (.pkt false) (loaded 0x80 1 57501 false) ∧
    metBy (.pkt true) (loaded 0x80 1 57500 false) :=
  ⟨by decide, metBy_of _ _ (by decide) rfl, metBy_of _ _ (by decide) rfl, metBy_of _ _ (by decide) rfl,
    metBy_of _ _ (by decide) rfl, metBy_of _ _ (by decide) rfl⟩

/-- FRM: the sums 59999, 60000, 60001. -/
theorem witness_FlushTransitions_frm :
    ([tocOnly 0x80 57499, tocOnly 0x80 57500, tocOnly 0x80 57501].map fun r => r.acc.toNat + r.frameUs) =
      [59999, 60000, 60001] ∧
    metBy .frm (tocOnly 0x80 57499) ∧ metBy .frm (tocOnly 0x80 57500) ∧ metBy .frm (tocOnly 0x80 57501) :=
  ⟨by decide, metBy_of _ _ (by decide) rfl, metBy_of _ _ (by decide) rfl, metBy_of _ _ (by decide) rfl⟩

theorem witness_FlushTransitions_moves :
    ((onPort fatal [.command 0xA000]).pending = .command 0xA000 :: [] ∧ decode 0xA000 = .illegal .noSuchOpcode) ∧
    (onPort fatal [.hardReset]).pending = .hardReset :: [] := by decide

/-- ACC_CLR in and out of the fatal state, SRST, a command of another unit, and a command that responds SEQ. -/
theorem witness_FlushTransitions_others :
    metBy .accClr (tocOnly 0x80 59999) ∧ (metBy .accClr fatal ∧ fatal.overFlag = true ∧ Instr.accClr.gated = true) ∧
    metBy .srst fatal ∧ (metBy (.crcByte 0) fatal ∧ (Instr.crcByte 0).gated = false) ∧
    (metBy .frm Regs.reset ∧ (after (exec .frm (quiet Regs.reset))).rsp = some ⟨.seq, evNone, 0⟩) :=
  ⟨metBy_of _ _ (by decide) rfl, ⟨metBy_of _ _ (by decide) rfl, rfl, rfl⟩, metBy_of _ _ (by decide) rfl,
    ⟨metBy_of _ _ (by decide) rfl, rfl⟩, ⟨metBy_of _ _ (by decide) rfl, by decide⟩⟩

theorem witness_NopAloneIsSilent : ∀ s, exec .nop s = s.answer s.regs .ok evNone 0#32 := fun _ => rfl

/-- Indices 11 and 12; a TOC; a count; a control byte; the needs of `RD 2`, `RD 8` and `RD 9` unmet. -/
theorem witness_RdReadsRegister :
    (11#4).toNat ≤ 11 ∧ 12 ≤ (12#4).toNat ∧ (tocOnly 0x08 0).tocv = true ∧
    (let r := loaded 0xFF 2 0 false;
      r.tocv = true ∧ r.nfv = true ∧ r.toc.toNat % 4 = 3) ∧
    (Instr.rd 2).needsMet Regs.reset = false ∧ (Instr.rd 8).needsMet (tocOnly 0x0B 0) = false ∧
    (Instr.rd 9).needsMet (loaded 0x08 1 0 false) = false := by decide

/-- Reads with a value and one without. -/
theorem witness_ReadsAreIdempotent :
    ((11#4).toNat ≤ 11 ∧ (Instr.rd 11).needsMet fatal = true) ∧ (Instr.rd 9).needsMet (loaded 0xFF 2 0 false) = true ∧
    exec (.rd 11) (quiet fatal) = .next (after (exec (.rd 11) (quiet fatal))) ∧
    ((2#4).toNat ≤ 11 ∧ (Instr.rd 2).needsMet Regs.reset = false) := ⟨by decide, by decide, rfl, by decide⟩

/-- All three flags set, and a command that is not SRST. -/
theorem witness_SrstAloneClearsFlags :
    Instr.frm ≠ .srst ∧
    (let r := { fatal with illFlag := true, seqFlag := true };
      exec .frm (quiet r) = .next (after (exec .frm (quiet r))) ∧ r.overFlag = true ∧ r.illFlag = true ∧
        r.seqFlag = true) := ⟨by decide, rfl, rfl, rfl, rfl⟩

theorem witness_OverGatesTheAccumulatorAlone :
    Instr.frm.gated = true ∧ fatal.overFlag = true ∧ Instr.nop.gated = false := by decide

theorem witness_FaultedChangesNothing :
    fatal.overFlag = true ∧ (Instr.pkt true).wf = true ∧
    exec (.pkt true) (quiet fatal) = .next (after (exec (.pkt true) (quiet fatal))) ∧
    (after (exec (.pkt true) (quiet fatal))).rsp = some ⟨.faulted, evNone, 0⟩ := ⟨rfl, rfl, rfl, by decide⟩

/-- A gated command with OVER = 0 whose need is unmet, and an ungated one. -/
theorem witness_SeqRaisedWhenNoValue :
    (Instr.frm.wf = true ∧ Regs.reset.overFlag = false ∧ Instr.frm.needsMet Regs.reset = false) ∧
    ((Instr.rd 11).wf = true ∧ (Instr.rd 11).gated = false ∧ (Instr.rd 11).needsMet fatal = true) := by decide

theorem witness_StatusFollowsPriority : (onPort fatal [.command 0x6000]).pending = .command 0x6000 :: [] := rfl

/-- Each of the five statuses is the response to some word in some state. -/
theorem witness_statuses :
    [(run1 fatal 0x8C00).rsp.map Response.status, (run1 Regs.reset 0x6000).rsp.map Response.status,
      (run1 fatal 0x6000).rsp.map Response.status, (run1 (tocOnly 0x80 57501) 0x6000).rsp.map Response.status,
      (run1 Regs.reset 0x0000).rsp.map Response.status] =
    [some .illegal, some .seq, some .faulted, some .overshoot, some .ok] := by decide

/-- The hypotheses on a step of one word that responds with a fault. -/
theorem witness_FaultsArePrecise :
    let s := onPort (tocOnly 0x80 57501) [.command 0x6000]
    s.pending = .command 0x6000 :: [] ∧ step s = .next (after (step s)) ∧
      (after (step s)).rsp = some ⟨.overshoot, evNone, 60001⟩ ∧ Status.overshoot ≠ .ok :=
  ⟨rfl, rfl, by decide, by decide⟩

/-- The hypotheses on a step of one word that raises an event; each of the five non-empty combinations occurs. -/
theorem witness_EventCombinations :
    (let s := onPort (tocOnly 0x80 57500) [.command 0x6000];
      s.pending = .command 0x6000 :: [] ∧ step s = .next (after (step s)) ∧
        (after (step s)).rsp = some ⟨.ok, evAppendFrmEmit, 0⟩) ∧
    [(run1 (loaded 0x80 1 0 false) 0x5000).rsp.map (·.ev.bits), (run1 (loaded 0x80 1 57500 false) 0x5000).rsp.map (·.ev.bits),
      (run1 (tocOnly 0x80 0) 0x6000).rsp.map (·.ev.bits), (run1 (tocOnly 0x80 57500) 0x6000).rsp.map (·.ev.bits),
      (run1 (loaded 0x80 1 0 false) 0x5100).rsp.map (·.ev.bits)] =
    [some 0b0010#4, some 0b0011#4, some 0b0100#4, some 0b0101#4, some 0b1000#4] :=
  ⟨⟨rfl, rfl, by decide⟩, by decide⟩

/-- An OK, a faulting and an overshooting command. -/
theorem witness_ResponseData :
    (Instr.fcbLd 0x3F).wf = true ∧
    (let s := quiet (tocOnly 0x1B 0);
      exec (.fcbLd 0x3F) s = .next (after (exec (.fcbLd 0x3F) s)) ∧
        (after (exec (.fcbLd 0x3F) s)).rsp = some ⟨.ok, evNone, 3780000⟩) ∧
    (after (exec .frm (quiet fatal))).rsp = some ⟨.faulted, evNone, 0⟩ ∧
    ((tocOnly 0x18 59999).AccInRange ∧
      (after (exec .frm (quiet (tocOnly 0x18 59999)))).rsp = some ⟨.overshoot, evNone, 119999⟩) :=
  ⟨rfl, ⟨rfl, by decide⟩, by decide, by decide, by decide⟩

theorem witness_WriteMatrix :
    (Instr.tocLd 0x0B).wf = true ∧
    exec (.tocLd 0x0B) (quiet fatal) = .next (after (exec (.tocLd 0x0B) (quiet fatal))) ∧ Instr.tocLd 0x0B ≠ .srst ∧
    (0x0B#8).toNat % 4 = 3 := ⟨rfl, rfl, by decide, by decide⟩

theorem witness_CrcStreamInterleaves :
    (∃ b, Instr.crcByte 0x31 = .crcByte b) ∧
    (Instr.frm ≠ .crcInit ∧ (∀ b, Instr.frm ≠ .crcByte b) ∧ Instr.frm ≠ .rd 1#4 ∧ Instr.frm ≠ .srst) :=
  ⟨⟨_, rfl⟩, by simp⟩

theorem witness_FlagsAreSticky :
    let s := onPort { fatal with illFlag := true, seqFlag := true } [.command 0x7000]
    step s = .next (after (step s)) ∧ (∀ m rest, s.pending = m :: rest → m.resets = false) ∧ s.regs.overFlag = true ∧
      s.regs.illFlag = true ∧ s.regs.seqFlag = true := ⟨rfl, by rintro m rest ⟨⟩; decide, rfl, rfl, rfl⟩

/-- A step in which the line rises, and the two moves by which it falls. -/
theorem witness_FaultLineFollowsOver :
    (onPort (tocOnly 0x80 57501) [.command 0x6000]).faultLine = false ∧
    (run1 (tocOnly 0x80 57501) 0x6000).faultLine = true ∧
    (onPort fatal [.hardReset]).faultLine = true ∧ (after (step (onPort fatal [.hardReset]))).faultLine = false ∧
    (run1 fatal 0x9000).faultLine = false := by decide

/-- The invariant at reset, with the most accumulated, at both ends of the fatal range, and with a count of each code. -/
theorem witness_StepKeepsInvariant :
    Regs.reset.Inv ∧ (loaded 0x80 1 59999 false).Inv ∧ (loaded 0x81 2 60001 true).Inv ∧ (loaded 0x83 63 119999 true).Inv :=
  ⟨by decide, by decide, by decide, by decide⟩

/-- States the invariant rules out: 60000 left standing, and a code-0 TOC with a count of 2. -/
theorem test_invariant_excludes :
    ¬ (loaded 0x80 1 60000 false).AccInRange ∧ ¬ (loaded 0x80 2 0 false).CountBelongs := ⟨by decide, by decide⟩

theorem witness_StepKeepsInvariant_step :
    let s := onPort (loaded 0x80 1 59999 false) [.command 0x6000]
    s.regs.Inv ∧ step s = .next (after (step s)) := ⟨by decide, rfl⟩

theorem witness_AccStaysOnGrid :
    (loaded 0x80 1 57500 false).AccOnGrid ∧ (loaded 0x80 1 62500 true).AccOnGrid ∧ (loaded 0x80 1 117500 true).AccOnGrid ∧
    ¬ (loaded 0x80 1 60000 false).AccOnGrid ∧ ¬ (loaded 0x80 1 57501 false).AccOnGrid := by decide

theorem witness_AccStaysOnGrid_step :
    let s := onPort (loaded 0x18 1 57500 false) [.command 0x6000]
    s.regs.AccOnGrid ∧ step s = .next (after (step s)) ∧ (after (step s)).regs.acc = 117500#17 :=
  ⟨by decide, rfl, by decide⟩

/-- Both commands that emit. -/
theorem witness_EmitOnlyAtExactBudget :
    let s := onPort (tocOnly 0x80 57500) [.command 0x6000]
    let s' := onPort (loaded 0x80 1 57500 false) [.command 0x5000]
    (s.pending = .command 0x6000 :: [] ∧ step s = .next (after (step s)) ∧
      (after (step s)).rsp = some ⟨.ok, evAppendFrmEmit, 0⟩ ∧ evAppendFrmEmit.emit = true) ∧
    (s'.pending = .command 0x5000 :: [] ∧ step s' = .next (after (step s')) ∧
      (after (step s')).rsp = some ⟨.ok, evAppendPktEmit, 0⟩ ∧ evAppendPktEmit.emit = true) :=
  ⟨⟨rfl, rfl, by decide, rfl⟩, ⟨rfl, rfl, by decide, rfl⟩⟩

/-- A host that has appended 57.5 ms and emitted one unit; the step completes a second one. -/
def oneUnit : HostTrack := ⟨[.packet 40000, .frame 0x78 17500], [[.packet 60000]]⟩

theorem witness_EmittedUnitsAreExact :
    let s := onPort (tocOnly 0x80 57500) [.command 0x6000]
    TrackInv s.regs oneUnit ∧ step s = .next (after (step s)) ∧
      oneUnit.after s (after (step s)) =
        ⟨[], [[.packet 60000], [.packet 40000, .frame 0x78 17500, .frame 0x80 2500]]⟩ :=
  ⟨⟨by decide, by decide, by decide⟩, rfl, by decide⟩

theorem witness_OvershotIsFatal :
    let s := onPort fatal [.command 0x6000, .command 0x7000, .command 0xFFFF, .hardReset]
    s.regs.overFlag = true ∧ (∀ q, s.rsp = some q → q.ev = evNone) ∧ (∀ m ∈ s.pending.take 3, m.resets = false) ∧
      runSteps 3 s = .next (after (runSteps 3 s)) :=
  ⟨rfl, by rintro q ⟨⟩, by decide, rfl⟩

/-- The step in which OVER rises; a step of another unit; one that responds SEQ. -/
theorem witness_AccumulatorIsUndisturbed :
    (let s := onPort (tocOnly 0x80 57501) [.command 0x6000];
      s.pending = .command 0x6000 :: [] ∧ step s = .next (after (step s)) ∧
        (after (step s)).rsp = some ⟨.overshoot, evNone, 60001⟩ ∧ s.regs.overFlag = false ∧
        (after (step s)).regs.overFlag = true) ∧
    (∀ i, decode 0x1000 = .command i → i.gated = false ∧ i ≠ .srst) ∧
    (run1 Regs.reset 0x6000).rsp = some ⟨.seq, evNone, 0⟩ :=
  ⟨⟨rfl, rfl, by decide, rfl, by decide⟩, by rintro i ⟨⟩; decide, by decide⟩

end Sys2Proof.Tests.Slice0
end

section
/-! SUPPORT. What a command can do to the registers, one constructor per effect: the write matrix of 10_state.md R39 as a
relation, from which frames and stickiness are read off without running a command again. -/

namespace Sys2Proof.Machine

/-- `Leaves r i r'`: the command `i`, run on the registers `r`, may leave the registers `r'` (10_state.md R39). -/
inductive Leaves (r : Regs) : Instr → Regs → Prop
  | unchanged {i} (hi : i = .nop ∨ i.gated = true ∨ ∃ k, i = .rd k) : Leaves r i r
  | crcInit : Leaves r .crcInit { r with crc := Config.crcInitValue }
  | crcByte (b) : Leaves r (.crcByte b) { r with crc := crcUpdate r.crc b }
  | tocLd (b) : Leaves r (.tocLd b)
      { r with
        toc := b, tocv := true, nfv := decide (tocCode b ≠ 3#2),
        nframes := if tocCode b = 3#2 then r.nframes else fixedCount (tocCode b) }
  | fcbLd (f) : Leaves r (.fcbLd f) { r with nframes := fcbCount f, nfv := true, pad := fcbPad f, vbr := fcbVbr f }
  | accumulate {i} (hi : i = .pkt false ∨ i = .frm ∨ i = .accClr) (a) : Leaves r i { r with acc := a }
  | overshoot (a) : Leaves r .frm { r with acc := a, overFlag := true }
  | seq {i} (hi : (∃ f, i = .fcbLd f) ∨ (∃ sd, i = .pkt sd) ∨ i = .frm ∨ ∃ k, i = .rd k) :
      Leaves r i { r with seqFlag := true }
  | noRegister {k} (hk : (Instr.rd k).wf = false) : Leaves r (.rd k) { r with illFlag := true }
  | srst : Leaves r .srst Regs.reset

/-- An answer leaves the later moves as they were and the registers as given. -/
theorem State.answer_leaves {s t : State} {r st ev d i} (h : s.answer r st ev d = .next t) (hl : Leaves s.regs i r) :
    t.pending = s.pending ∧ Leaves s.regs i t.regs := by
  rw [State.answer_next] at h
  subst h
  exact ⟨rfl, hl⟩

/-- What a command can do: the later moves stand, and the registers it leaves are those of one of its effects. -/
theorem exec_leaves {i : Instr} {s t : State} (h : exec i s = .next t) :
    t.pending = s.pending ∧ Leaves s.regs i t.regs := by
  cases i with
  | nop => exact State.answer_leaves h (.unchanged (by simp [Instr.gated]))
  | crcInit => exact State.answer_leaves ((exec_crcInit s).symm.trans h) .crcInit
  | crcByte b => exact State.answer_leaves ((exec_crcByte b s).symm.trans h) (.crcByte b)
  | tocLd b => exact State.answer_leaves ((exec_tocLd b s).symm.trans h) (.tocLd b)
  | srst => exact State.answer_leaves h .srst
  | fcbLd f =>
    rw [exec_fcbLd] at h
    split at h
    · exact State.answer_leaves h (.fcbLd f)
    · exact State.answer_leaves h (.seq (by simp))
  | accClr =>
    rw [exec_accClr] at h
    split at h
    · exact State.answer_leaves h (.unchanged (by simp [Instr.gated]))
    · exact State.answer_leaves h (.accumulate (by simp) _)
  | pkt sd =>
    rw [exec_pkt] at h
    split at h
    · exact State.answer_leaves h (.unchanged (by simp [Instr.gated]))
    split at h
    · split at h
      next hfast =>
        obtain ⟨rfl, -⟩ := hfast
        split at h
        · exact State.answer_leaves h (.accumulate (by simp) _)
        · exact State.answer_leaves h (.accumulate (by simp) _)
      next => exact State.answer_leaves h (.unchanged (by simp [Instr.gated]))
    · exact State.answer_leaves h (.seq (by simp))
  | frm =>
    rw [exec_frm] at h
    split at h
    · exact State.answer_leaves h (.unchanged (by simp [Instr.gated]))
    split at h
    · split at h
      · exact State.answer_leaves h (.accumulate (by simp) _)
      split at h
      · exact State.answer_leaves h (.accumulate (by simp) _)
      · exact State.answer_leaves h (.overshoot _)
    · exact State.answer_leaves h (.seq (by simp))
  | rd k =>
    rw [exec_rd] at h
    split at h
    next hnone =>
      have hk : (Instr.rd k).wf = false := by simp [Instr.wf, ← regNameOf_isSome, hnone]
      exact State.answer_leaves h (.noRegister hk)
    next =>
      split at h
      · exact State.answer_leaves h (.unchanged (by simp [Instr.gated]))
      · exact State.answer_leaves h (.seq (by simp))

/-- A sticky flag outlasts every effect but that of `SRST` (10_state.md R28). -/
theorem Leaves.keeps_flags {i : Instr} {r r' : Regs} (h : Leaves r i r') (hi : i ≠ .srst) :
    (r.overFlag = true → r'.overFlag = true) ∧ (r.illFlag = true → r'.illFlag = true) ∧
    (r.seqFlag = true → r'.seqFlag = true) := by
  cases h with
  | srst => exact absurd rfl hi
  | overshoot _ => exact ⟨fun _ => rfl, id, id⟩
  | seq _ => exact ⟨id, id, fun _ => rfl⟩
  | noRegister _ => exact ⟨id, fun _ => rfl, id⟩
  | _ => exact ⟨id, id, id⟩

/-- `RD 0` responds the status word in every state (43_system.md R152). -/
theorem exec_rd_status (s : State) : exec (.rd 0#4) s = s.answer s.regs .ok evNone s.regs.statusWord := rfl

/-- The bits of `STATUS` (10_state.md R29). -/
theorem Regs.statusWord_getLsbD (r : Regs) (k : Nat) :
    r.statusWord.getLsbD k =
      if k = 0 then r.overFlag else if k = 1 then r.illFlag else if k = 2 then r.seqFlag
      else if k = 8 then r.tocv else if k = 9 then r.nfv else false := by
  rcases Nat.lt_or_ge k 32 with hk | hk
  · simp only [Regs.statusWord, BitVec.getLsbD_append, BitVec.getLsbD_ofBool, BitVec.getLsbD_zero]
    interval_cases k <;> simp
  · rw [BitVec.getLsbD_of_ge _ _ hk]
    repeat rw [if_neg (by omega)]

end Sys2Proof.Machine
end

section
/-! PROOFS. The family 10_state.md: the status register, the write matrix, the sticky flags and the reset values. -/

namespace Sys2Proof.Proofs

open Sys2Proof.Machine

/-- Settles O32: the response is the status word, whose bits are those of R29. -/
theorem statusRegisterBits : Obligations.StatusRegisterBits := by
  intro s
  refine ⟨_, exec_rd_status s, ?_⟩
  simp only [Regs.statusWord_getLsbD]
  simp +contextual

/-- Settles O41, effect by effect. -/
theorem writeMatrix : Obligations.WriteMatrix := by
  intro i s t hwf h hsrst
  obtain ⟨hpending, hleaves⟩ := exec_leaves h
  refine ⟨hpending, ?_⟩
  generalize t.regs = r' at hleaves
  cases hleaves with
  | srst => exact absurd rfl hsrst
  | noRegister hk => simp [hk] at hwf
  | unchanged _ => simp
  | crcInit => simp
  | crcByte b => simp
  | tocLd b => simp +contextual [tocCode_eq_three]
  | fcbLd f => simp
  | accumulate hi a => rcases hi with rfl | rfl | rfl <;> simp [Instr.gated]
  | overshoot a => simp [Instr.gated]
  | seq hi => rcases hi with ⟨f, rfl⟩ | ⟨sd, rfl⟩ | rfl | ⟨k, rfl⟩ <;> simp

/-- Settles O43: an idle step changes nothing, an illegal word only sets ILL, and a command that is not `SRST` keeps the
flags. -/
theorem flagsAreSticky : Obligations.FlagsAreSticky := by
  intro s t h hmove
  obtain ⟨-, rfl⟩ | ⟨rest, hp, -⟩ | ⟨w, rest, e, -, -, rfl⟩ | ⟨w, rest, i, hp, hd, hx⟩ := step_cases h
  · exact ⟨id, id, id⟩
  · exact absurd (hmove _ _ hp) (by simp [PortMove.resets])
  · exact ⟨id, fun _ => rfl, id⟩
  · have hi : i ≠ .srst := by simpa [PortMove.resets, hd] using hmove _ _ hp
    exact (exec_leaves hx).2.keeps_flags hi

/-- Settles O1: hard reset and `SRST` both give the registers `State.reset` has. -/
theorem resetValues : Obligations.ResetValues :=
  ⟨rfl, rfl, fun _ _ h => step_reset h, exec_srst⟩

end Sys2Proof.Proofs
end

section
/-! SUPPORT. Running the words on the port: a step that decodes, and the CRC unit's words. -/

namespace Sys2Proof.Machine

/-- A word that decodes is the command it decodes to, run with the later moves on the port (20_memory.md R59). -/
theorem step_run {s : State} {w rest i} (h : s.pending = .command w :: rest) (hd : decode w = .command i) :
    step s = exec i { s with pending := rest } := by
  simp [step, fetch_run h hd]

theorem runSteps_succ {s t : State} (h : step s = .next t) (k : Nat) : runSteps (k + 1) s = runSteps k t := by
  simp [runSteps, h]

/-- The word `crcByteWords` makes of a byte is that byte's `CRC_BYTE` (40_crc.md R104). -/
theorem decode_crcByteWord (b : Byte) : decode (0x2000#16 ||| b.setWidth 16) = .command (.crcByte b) := by
  revert b; decide

theorem step_crcInitWord (r : Regs) (ws : List CmdWord) (rest : List PortMove) (q : Option Response) :
    step (portState r (0x1000#16 :: ws) rest q) =
      .next (portState { r with crc := 0#32 } ws rest (some ⟨.ok, evNone, 0#32⟩)) := by
  rw [step_run rfl (show decode 0x1000#16 = .command .crcInit by decide), exec_crcInit]; rfl

theorem step_crcByteWord (b : Byte) (r : Regs) (ws : List CmdWord) (rest : List PortMove) (q : Option Response) :
    step (portState r ((0x2000#16 ||| b.setWidth 16) :: ws) rest q) =
      .next (portState { r with crc := crcUpdate r.crc b } ws rest (some ⟨.ok, evNone, crcUpdate r.crc b⟩)) := by
  rw [step_run rfl (decode_crcByteWord b), exec_crcByte]; rfl

/-- What the words of a byte string do to a block whose last response reported `CRC`: `CRC` is folded over the bytes and
the last response reports it again. -/
theorem runSteps_crcByteWords (bs : List Byte) (r : Regs) (rest : List PortMove) :
    runSteps bs.length (portState r (crcByteWords bs) rest (some ⟨.ok, evNone, r.crc⟩)) =
      .next { regs := { r with crc := crcStream bs r.crc }, pending := rest,
              rsp := some ⟨.ok, evNone, crcStream bs r.crc⟩ } := by
  induction bs generalizing r with
  | nil => rfl
  | cons b bs ih =>
    calc runSteps (bs.length + 1) (portState r (crcByteWords (b :: bs)) rest (some ⟨.ok, evNone, r.crc⟩))
      _ = runSteps bs.length
            (portState { r with crc := crcUpdate r.crc b } (crcByteWords bs) rest
              (some ⟨.ok, evNone, crcUpdate r.crc b⟩)) := runSteps_succ (step_crcByteWord b r _ rest _) _
      _ = _ := ih { r with crc := crcUpdate r.crc b }

end Sys2Proof.Machine
end

section
/-! SUPPORT. `RD` by what its need says: with the need met the register reads as a value, otherwise it raises SEQ. -/

namespace Sys2Proof.Machine

/-- The need of `RD 9` with the code as a number, as 60_exceptions.md R163 writes it. -/
theorem Regs.hasFcb_eq (r : Regs) : r.hasFcb = (r.tocv && r.nfv && r.toc.toNat % 4 == 3) := by
  rw [Bool.eq_iff_iff, Regs.hasFcb_iff]
  simp [and_assoc]

/-- A register holds no value exactly when the need of `RD` at its index is unmet (10_state.md R30,
60_exceptions.md R163), index by index. -/
theorem Regs.read_eq_none_iff_needsMet {k : BitVec 4} {n : RegName} (hk : regNameOf k = some n) (r : Regs) :
    r.read n = none ↔ (Instr.rd k).needsMet r = false := by
  rw [Regs.read_eq_none]
  unfold regNameOf at hk
  split at hk <;> cases hk <;> simp [Instr.needsMet, Regs.hasToc, Regs.hasCount, Regs.hasFcb_eq, *]

theorem exec_rd_of_needsMet {k : BitVec 4} {r : Regs} (hk : regIndexOk k = true)
    (hn : (Instr.rd k).needsMet r = true) :
    ∃ v, ∀ s : State, s.regs = r → exec (.rd k) s = s.answer s.regs .ok evNone v := by
  obtain ⟨n, hreg⟩ := Option.isSome_iff_exists.mp ((regNameOf_isSome k).trans hk)
  have hread : r.read n ≠ none := by simp [Regs.read_eq_none_iff_needsMet hreg, hn]
  obtain ⟨v, hv⟩ := Option.ne_none_iff_exists'.mp hread
  refine ⟨v, fun s hs => ?_⟩
  subst hs
  simp only [exec_rd, hreg, hv]

theorem exec_rd_of_not_needsMet {k : BitVec 4} {s : State} (hk : regIndexOk k = true)
    (hn : (Instr.rd k).needsMet s.regs = false) :
    exec (.rd k) s = s.answer { s.regs with seqFlag := true } .seq evNone 0#32 := by
  obtain ⟨n, hreg⟩ := Option.isSome_iff_exists.mp ((regNameOf_isSome k).trans hk)
  have hv : s.regs.read n = none := (Regs.read_eq_none_iff_needsMet hreg s.regs).mpr hn
  simp only [exec_rd, hreg, hv]

end Sys2Proof.Machine
end

section
/-! SUPPORT. The commands that neither read nor write `CRC` run the same whatever it holds, and leave it as it is. -/

namespace Sys2Proof

/-- The commands of the other units: all but `CRC_INIT`, `CRC_BYTE`, `RD 1` and `SRST` (20_memory.md R61). -/
abbrev Instr.AvoidsCrc (j : Instr) : Prop :=
  j ≠ .crcInit ∧ (∀ b, j ≠ .crcByte b) ∧ j ≠ .rd 1#4 ∧ j ≠ .srst

namespace Machine

theorem regNameOf_eq_crc (k : BitVec 4) : regNameOf k = some .crc ↔ k = 1#4 := by
  revert k; decide

/-- Every register but `CRC` reads the same whatever `CRC` holds. -/
theorem Regs.read_with_crc {n : RegName} (hn : n ≠ .crc) (r : Regs) (c : DataWord) :
    Regs.read { r with crc := c } n = r.read n := by
  cases n with
  | crc => exact absurd rfl hn
  | _ => rfl

/-- The next state of an answer carries a change of `CRC` made before it. -/
theorem State.answer_writeCrc {s t : State} {r st ev d} (c : DataWord) (h : s.answer r st ev d = .next t) :
    (s.writeCrc c).answer { r with crc := c } st ev d = .next (t.writeCrc c) := by
  rw [State.answer_next] at h ⊢
  subst h
  rfl

/-- Two branchings on one condition, related branch by branch. -/
theorem ite_next {p : Prop} [Decidable p] {x y x' y' : Result} {t u : State}
    (hx : x = .next t → x' = .next u) (hy : y = .next t → y' = .next u) :
    (if p then x else y) = .next t → (if p then x' else y') = .next u := by
  split
  · exact hx
  · exact hy

/-- A command of another unit commutes with writing `CRC`. -/
theorem exec_writeCrc {j : Instr} {s t : State} (hj : j.AvoidsCrc) (c : DataWord) (h : exec j s = .next t) :
    exec j (s.writeCrc c) = .next (t.writeCrc c) := by
  obtain ⟨hinit, hbyte, hrd, hsrst⟩ := hj
  have answer {r st ev d} := State.answer_writeCrc (s := s) (t := t) (r := r) (st := st) (ev := ev) (d := d) c
  cases j with
  | crcInit => exact absurd rfl hinit
  | crcByte b => exact absurd rfl (hbyte b)
  | srst => exact absurd rfl hsrst
  | nop => exact answer h
  | tocLd b => rw [exec_tocLd] at h ⊢; exact answer h
  | fcbLd f => rw [exec_fcbLd] at h ⊢; exact ite_next answer answer h
  | accClr => rw [exec_accClr] at h ⊢; exact ite_next answer answer h
  | pkt sd =>
    rw [exec_pkt] at h ⊢
    exact ite_next answer (ite_next (ite_next (ite_next answer answer) answer) answer) h
  | frm =>
    rw [exec_frm] at h ⊢
    exact ite_next answer (ite_next (ite_next answer (ite_next answer answer)) answer) h
  | rd k =>
    rw [exec_rd] at h ⊢
    rcases hk : regNameOf k with _ | n
    · simp only [hk] at h ⊢; exact answer h
    · have hn : n ≠ .crc := by rintro rfl; exact hrd (by rw [(regNameOf_eq_crc k).mp hk])
      simp only [hk, State.writeCrc_regs, Regs.read_with_crc hn] at h ⊢
      rcases hv : s.regs.read n with _ | v
      · simp only [hv] at h ⊢; exact answer h
      · simp only [hv] at h ⊢; exact answer h

/-- What a command of another unit answers, for every value of `CRC` at once: `CRC` passes through it. -/
theorem exec_answers_any_crc {j : Instr} (hj : j.AvoidsCrc) (r : Regs) :
    ∃ (r' : Regs) (st : Status) (ev : Events) (d : DataWord), ∀ (c : DataWord) (s : State),
      s.regs = { r with crc := c } → exec j s = s.answer { r' with crc := c } st ev d := by
  obtain ⟨r', st, ev, d, hx⟩ := exec_answers j r
  refine ⟨r', st, ev, d, fun c s hs => ?_⟩
  have hs' : s = State.writeCrc { s with regs := r } c := by simp [State.writeCrc, ← hs]
  calc exec j s
    _ = exec j (State.writeCrc { s with regs := r } c) := by rw [← hs']
    _ = _ := exec_writeCrc hj c (hx _ rfl)

/-- `CRC_INIT` and `CRC_BYTE` write one function of `CRC` to `CRC` and respond it (40_crc.md R103, R104). -/
theorem exec_crcUnit {i : Instr} (hi : i = .crcInit ∨ ∃ b, i = .crcByte b) :
    ∃ f : DataWord → DataWord, ∀ s : State,
      exec i s = s.answer { s.regs with crc := f s.regs.crc } .ok evNone (f s.regs.crc) := by
  obtain rfl | ⟨b, rfl⟩ := hi
  · exact ⟨fun _ => Config.crcInitValue, exec_crcInit⟩
  · exact ⟨fun c => crcUpdate c b, exec_crcByte b⟩

end Machine
end Sys2Proof
end

section
/-! PROOFS. The family 20_memory.md: steps and runs over the port, the CRC stream, and the reads. -/

namespace Sys2Proof.Proofs

open Sys2Proof.Machine

/-- Settles O2: the move on the port, or none, decides the step. -/
theorem stepRunsDecodedCommand : Obligations.StepRunsDecodedCommand :=
  ⟨fun _ _ _ _ => step_run, fun _ => step_idle⟩

/-- Settles O5, by induction on the words: one step on the port is `blockStep` on its first word. -/
theorem runIsLeftFold : Obligations.RunIsLeftFold := by
  intro ws
  induction ws with
  | nil => intro r rest q; rfl
  | cons w ws ih =>
    intro r rest q
    rw [List.length_cons, runSteps_succ (step_portState r w ws rest q), ih]
    simp [foldWords, responsesTo, List.getLast?_cons]

/-- Settles O16: `CRC_INIT` forgets the value before it, and the bytes' words fold from there. -/
theorem crcDependsOnTheBytesAlone : Obligations.CrcDependsOnTheBytesAlone := by
  intro bs r rest q
  rw [runSteps_succ (step_crcInitWord r _ rest q)]
  exact runSteps_crcByteWords bs { r with crc := 0#32 } rest

/-- Settles O31: what `RD` answers depends on the registers alone, which a read with a value leaves as they are. -/
theorem readsAreIdempotent : Obligations.ReadsAreIdempotent := by
  intro k s hk
  have hok : regIndexOk k = true := by simpa [regIndexOk] using hk
  refine ⟨fun hn => ?_, exec_rd_of_not_needsMet hok⟩
  obtain ⟨v, hread⟩ := exec_rd_of_needsMet hok hn
  refine ⟨v, hread s rfl, fun t ht => ?_⟩
  rw [hread s rfl, State.answer_next] at ht
  subst ht
  exact hread _ rfl

/-- Settles O42: the one command maps `CRC` to a function of `CRC`, and `CRC` passes through the other. -/
theorem crcStreamInterleaves : Obligations.CrcStreamInterleaves := by
  intro i j r hi hj
  obtain ⟨f, hcrc⟩ := exec_crcUnit hi
  obtain ⟨r', st, ev, d, hother⟩ := exec_answers_any_crc hj r
  exact ⟨_, _, _, _, hcrc _, hother (f r.crc) _ rfl, hother r.crc _ rfl, hcrc _, rfl, rfl, rfl⟩

end Sys2Proof.Proofs
end

section
/-! SUPPORT. The decoder taken apart: what each format accepts, which words it rejects, and a command's row as its three
fields. -/

namespace Sys2Proof

/-! ### What a format decodes -/

theorem decodeN_eq_command {w : CmdWord} {c i : Instr} :
    decodeN w c = .command i ↔ modField w = 0#4 ∧ immField w = 0#8 ∧ c = i := by
  unfold decodeN; split <;> simp_all

theorem decodeB_eq_command {w : CmdWord} {c : Byte → Instr} {i : Instr} :
    decodeB w c = .command i ↔ modField w = 0#4 ∧ c (immField w) = i := by
  unfold decodeB; split <;> simp_all

/-- The modifier of Format F is its operand, with zeros above it. -/
theorem modifierF_eq_iff (md : BitVec 4) (sd : Bool) :
    md = 0#3 ++ BitVec.ofBool sd ↔ md.extractLsb' 1 3 = 0#3 ∧ md.getLsbD 0 = sd := by
  revert md sd; decide

theorem decodeF_eq_command {w : CmdWord} {c : Bool → Instr} {i : Instr} :
    decodeF w c = .command i ↔
      ∃ sd, modField w = 0#3 ++ BitVec.ofBool sd ∧ immField w = 0#8 ∧ c sd = i := by
  unfold decodeF
  simp only [modifierF_eq_iff]
  split
  next h => simp [h]
  next h =>
    refine iff_of_false nofun ?_
    rintro ⟨sd, ⟨hmod, -⟩, himm, -⟩
    exact h ⟨hmod, himm⟩

theorem decodeR_eq_command {w : CmdWord} {c : BitVec 4 → Instr} {i : Instr} :
    decodeR w c = .command i ↔ immField w = 0#8 ∧ regIndexOk (modField w) = true ∧ c (modField w) = i := by
  unfold decodeR; split
  next h => split <;> simp_all
  next h => simp [h]

/-- A word decodes to a command exactly when the command is well-formed and the word's three fields are the command's
(30_encoding.md R73, R74). -/
theorem decode_eq_command_iff {w : CmdWord} {i : Instr} :
    decode w = .command i ↔
      i.wf = true ∧ opField w = i.opcode ∧ modField w = i.modifier ∧ immField w = i.imm8 := by
  constructor
  · intro h
    have opcode {n : Nat} (hn : (opField w).toNat = n) : opField w = BitVec.ofNat 4 n := by
      rw [← hn, BitVec.ofNat_toNat, BitVec.setWidth_eq]
    unfold decode at h
    split at h
    case h_1 hop | h_2 hop | h_7 hop | h_8 hop | h_10 hop =>
      obtain ⟨hmod, himm, rfl⟩ := decodeN_eq_command.mp h
      exact ⟨rfl, opcode hop, hmod, himm⟩
    case h_3 hop | h_4 hop | h_5 hop =>
      obtain ⟨hmod, rfl⟩ := decodeB_eq_command.mp h
      exact ⟨rfl, opcode hop, hmod, rfl⟩
    case h_6 hop =>
      obtain ⟨sd, hmod, himm, rfl⟩ := decodeF_eq_command.mp h
      exact ⟨rfl, opcode hop, hmod, himm⟩
    case h_9 hop =>
      obtain ⟨himm, hreg, rfl⟩ := decodeR_eq_command.mp h
      exact ⟨hreg, opcode hop, rfl, himm⟩
    case h_11 => cases h
  · rintro ⟨hwf, hop, hmod, himm⟩
    unfold decode
    rw [hop]
    cases i with
    | nop | crcInit | frm | accClr | srst => exact decodeN_eq_command.mpr ⟨hmod, himm, rfl⟩
    | crcByte b | tocLd b | fcbLd b => exact decodeB_eq_command.mpr ⟨hmod, congrArg _ himm⟩
    | pkt sd => exact decodeF_eq_command.mpr ⟨sd, hmod, himm, rfl⟩
    | rd r => exact decodeR_eq_command.mpr ⟨himm, (congrArg regIndexOk hmod).trans hwf, congrArg _ hmod⟩

/-- The word of a command is the word with the command's fields. -/
theorem encode_eq_iff {w : CmdWord} {i : Instr} :
    encode i = w ↔ opField w = i.opcode ∧ modField w = i.modifier ∧ immField w = i.imm8 := by
  constructor
  · rintro rfl
    exact Laws.EncodedFields.of_cmdWord i
  · rintro ⟨hop, hmod, himm⟩
    rw [encode, ← hop, ← hmod, ← himm, cmdWord_fields]

/-- Decoding and encoding are inverse to each other on the well-formed commands. -/
theorem decode_eq_command_iff_encode {w : CmdWord} {i : Instr} :
    decode w = .command i ↔ i.wf = true ∧ encode i = w := by
  rw [decode_eq_command_iff, encode_eq_iff]

/-! ### The rows of the opcode table -/

theorem immField_eq_iff (w : CmdWord) (b : Byte) : immField w = b ↔ b.toNat = w.toNat % 256 := by
  rw [← BitVec.toNat_inj, immField_toNat, eq_comm]

theorem modField_eq_iff (w : CmdWord) (r : BitVec 4) : modField w = r ↔ r.toNat = w.toNat / 256 % 16 := by
  rw [← BitVec.toNat_inj, modField_toNat, eq_comm]

theorem immField_eq_zero_iff (w : CmdWord) : immField w = 0#8 ↔ w.toNat % 256 = 0 := by
  rw [immField_eq_iff]; exact eq_comm

theorem modField_eq_zero_iff (w : CmdWord) : modField w = 0#4 ↔ w.toNat / 256 % 16 = 0 := by
  rw [modField_eq_iff]; exact eq_comm

theorem nibble_and_ones (x : BitVec 4) : x &&& 15#4 = x := BitVec.and_allOnes

theorem byte_and_ones (x : Byte) : x &&& 255#8 = x := BitVec.and_allOnes

/-- A row's match under a mask that fixes the opcode, field by field. -/
theorem matchesRow_iff {w : CmdWord} {op mm md : BitVec 4} {mi imm : Byte} :
    w &&& cmdWord 15#4 mm mi = cmdWord op md imm ↔
      opField w = op ∧ modField w &&& mm = md ∧ immField w &&& mi = imm := by
  rw [and_eq_iff_fields]
  simp only [opField_cmdWord, modField_cmdWord, immField_cmdWord, nibble_and_ones]

/-- A row without operands: match and mask fix the whole word (30_encoding.md R74). -/
theorem decode_rowN {w v : CmdWord} {i : Instr} (hwf : i.wf = true) (hv : encode i = v) :
    decode w = .command i ↔ w &&& 0xFFFF#16 = v := by
  rw [decode_eq_command_iff_encode, hv, show (0xFFFF#16) = BitVec.allOnes 16 from rfl, BitVec.and_allOnes]
  simp [hwf, eq_comm]

/-- A row with a byte operand. -/
theorem decode_rowB {w v : CmdWord} {i : Instr} {b : Byte} (hwf : i.wf = true) (hmod : i.modifier = 0#4)
    (himm : i.imm8 = b) (hv : cmdWord i.opcode 0#4 0#8 = v) :
    decode w = .command i ↔ w &&& 0xFF00#16 = v ∧ b.toNat = w.toNat % 256 := by
  rw [decode_eq_command_iff, ← immField_eq_iff, ← hv, show 0xFF00#16 = cmdWord 15#4 15#4 0#8 from rfl,
    matchesRow_iff]
  simp [hwf, hmod, himm, nibble_and_ones, and_assoc]

/-- The row of `PKT`: the mask leaves bit 8 out. -/
theorem decode_rowF {w : CmdWord} {sd : Bool} :
    decode w = .command (.pkt sd) ↔ w &&& 0xFEFF#16 = 0x5000#16 ∧ sd = w.getLsbD 8 := by
  have hbit : w.getLsbD 8 = (modField w).getLsbD 0 := by simp [modField]
  have hmod (md : BitVec 4) : md = 0#3 ++ BitVec.ofBool sd ↔ md &&& 14#4 = 0#4 ∧ sd = md.getLsbD 0 := by
    revert md sd; decide
  rw [decode_eq_command_iff, hbit, show 0xFEFF#16 = cmdWord 15#4 14#4 255#8 from rfl,
    show 0x5000#16 = cmdWord 5#4 0#4 0#8 from rfl, matchesRow_iff]
  simp only [Instr.wf, Instr.opcode, Instr.modifier, Instr.imm8, byte_and_ones, hmod]
  tauto

/-- The row of `RD`: the mask leaves bits 11:8 out, and the index must exist. -/
theorem decode_rowR {w : CmdWord} {r : BitVec 4} :
    decode w = .command (.rd r) ↔
      w &&& 0xF0FF#16 = 0x8000#16 ∧ r.toNat = w.toNat / 256 % 16 ∧ r.toNat ≤ 11 := by
  rw [decode_eq_command_iff, ← modField_eq_iff, show 0xF0FF#16 = cmdWord 15#4 0#4 255#8 from rfl,
    show 0x8000#16 = cmdWord 8#4 0#4 0#8 from rfl, matchesRow_iff]
  simp only [Instr.wf, regIndexOk, decide_eq_true_eq, Instr.opcode, Instr.modifier, Instr.imm8, byte_and_ones,
    BitVec.and_zero]
  tauto

/-! ### The illegal words -/

theorem decodeN_illegal_iff {w : CmdWord} {c : Instr} :
    (∃ why, decodeN w c = .illegal why) ↔ w.toNat % 4096 ≠ 0 := by
  have hzero : modField w = 0#4 ∧ immField w = 0#8 ↔ w.toNat % 4096 = 0 := by
    rw [modField_eq_zero_iff, immField_eq_zero_iff]; omega
  simp only [decodeN, hzero]
  split <;> simp_all

theorem decodeB_illegal_iff {w : CmdWord} {c : Byte → Instr} :
    (∃ why, decodeB w c = .illegal why) ↔ w.toNat / 256 % 16 ≠ 0 := by
  simp only [decodeB, modField_eq_zero_iff]
  split <;> simp_all

theorem decodeF_illegal_iff {w : CmdWord} {c : Bool → Instr} :
    (∃ why, decodeF w c = .illegal why) ↔ 2 ≤ w.toNat / 256 % 16 ∨ w.toNat % 256 ≠ 0 := by
  have hlow (md : BitVec 4) : md.extractLsb' 1 3 = 0#3 ↔ md.toNat < 2 := by revert md; decide
  simp only [decodeF, hlow, immField_eq_zero_iff, modField_toNat]
  split
  · simp; omega
  · simp; omega

theorem decodeR_illegal_iff {w : CmdWord} {c : BitVec 4 → Instr} :
    (∃ why, decodeR w c = .illegal why) ↔ w.toNat % 256 ≠ 0 ∨ 12 ≤ w.toNat / 256 % 16 := by
  have hreg : regIndexOk (modField w) = true ↔ w.toNat / 256 % 16 ≤ 11 := by
    simp [regIndexOk, modField_toNat]
  simp only [decodeR, immField_eq_zero_iff, hreg]
  split
  next h =>
    split
    · simp; omega
    · simp; omega
  next h => simp [h]

/-- The illegal words, opcode by opcode (30_encoding.md R75). -/
theorem decode_illegal_iff (w : CmdWord) :
    (∃ why, decode w = .illegal why) ↔
      10 ≤ w.toNat / 4096 ∨
      (w.toNat / 4096 ∈ [0, 1, 6, 7, 9] ∧ w.toNat % 4096 ≠ 0) ∨
      (w.toNat / 4096 ∈ [2, 3, 4] ∧ w.toNat / 256 % 16 ≠ 0) ∨
      (w.toNat / 4096 = 5 ∧ (2 ≤ w.toNat / 256 % 16 ∨ w.toNat % 256 ≠ 0)) ∨
      (w.toNat / 4096 = 8 ∧ (w.toNat % 256 ≠ 0 ∨ 12 ≤ w.toNat / 256 % 16)) := by
  unfold decode
  rw [opField_toNat]
  split
  case h_1 hop | h_2 hop | h_7 hop | h_8 hop | h_10 hop => rw [decodeN_illegal_iff]; simp [hop]
  case h_3 hop | h_4 hop | h_5 hop => rw [decodeB_illegal_iff]; simp [hop]
  case h_6 hop => rw [decodeF_illegal_iff]; simp [hop]
  case h_9 hop => rw [decodeR_illegal_iff]; simp [hop]
  case h_11 =>
    have hop : 10 ≤ w.toNat / 4096 := by grind
    exact iff_of_true ⟨_, rfl⟩ (.inl hop)

end Sys2Proof
end

section
/-! SUPPORT. What a command answers, one constructor per outcome: the registers it leaves (`Leaves` gives those alone), the
response with them, and what must have held for that outcome. -/

namespace Sys2Proof.Machine

/-- `Responds r i r' q`: the command `i`, run on the registers `r`, leaves `r'` and responds `q` (40_crc.md to
43_system.md). -/
inductive Responds (r : Regs) : Instr → Regs → Response → Prop
  | nop : Responds r .nop r ⟨.ok, evNone, 0#32⟩
  | crcInit : Responds r .crcInit { r with crc := Config.crcInitValue } ⟨.ok, evNone, Config.crcInitValue⟩
  | crcByte (b) : Responds r (.crcByte b) { r with crc := crcUpdate r.crc b } ⟨.ok, evNone, crcUpdate r.crc b⟩
  | tocLd (b) : Responds r (.tocLd b)
      { r with
        toc := b, tocv := true, nfv := decide (tocCode b ≠ 3#2),
        nframes := if tocCode b = 3#2 then r.nframes else fixedCount (tocCode b) }
      ⟨.ok, evNone, BitVec.ofNat 32 (frameUsOf (tocConfig b))⟩
  | fcbLd (f) (hfcb : r.wantsFcb = true) : Responds r (.fcbLd f)
      { r with nframes := fcbCount f, nfv := true, pad := fcbPad f, vbr := fcbVbr f }
      ⟨.ok, evNone, BitVec.ofNat 32 ((fcbCount f).toNat * r.frameUs)⟩
  | pktEmit (ho : r.overFlag = false) (hcount : r.hasCount = true) (hsum : r.acc.toNat + r.totalUs = 60000) :
      Responds r (.pkt false) { r with acc := 0#17 } ⟨.ok, evAppendPktEmit, 0#32⟩
  | pktAppend (ho : r.overFlag = false) (hcount : r.hasCount = true) (hsum : r.acc.toNat + r.totalUs < 60000) :
      Responds r (.pkt false) { r with acc := BitVec.ofNat 17 (r.acc.toNat + r.totalUs) }
        ⟨.ok, evAppendPkt, BitVec.ofNat 32 (r.acc.toNat + r.totalUs)⟩
  | pktSplit (sd) (ho : r.overFlag = false) (hcount : r.hasCount = true)
      (hslow : sd = true ∨ 60000 < r.acc.toNat + r.totalUs) :
      Responds r (.pkt sd) r ⟨.ok, evSplit, r.acc.setWidth 32⟩
  | frmAppend (ho : r.overFlag = false) (htoc : r.tocv = true) (hsum : r.acc.toNat + r.frameUs < 60000) :
      Responds r .frm { r with acc := BitVec.ofNat 17 (r.acc.toNat + r.frameUs) }
        ⟨.ok, evAppendFrm, BitVec.ofNat 32 (r.acc.toNat + r.frameUs)⟩
  | frmEmit (ho : r.overFlag = false) (htoc : r.tocv = true) (hsum : r.acc.toNat + r.frameUs = 60000) :
      Responds r .frm { r with acc := 0#17 } ⟨.ok, evAppendFrmEmit, 0#32⟩
  | overshoot (ho : r.overFlag = false) (htoc : r.tocv = true) (hsum : 60000 < r.acc.toNat + r.frameUs) :
      Responds r .frm { r with acc := BitVec.ofNat 17 (r.acc.toNat + r.frameUs), overFlag := true }
        ⟨.overshoot, evNone, (BitVec.ofNat 17 (r.acc.toNat + r.frameUs)).setWidth 32⟩
  | accClr (ho : r.overFlag = false) : Responds r .accClr { r with acc := 0#17 } ⟨.ok, evNone, 0#32⟩
  | rd {k n v} (hreg : regNameOf k = some n) (hread : r.read n = some v) : Responds r (.rd k) r ⟨.ok, evNone, v⟩
  | srst : Responds r .srst Regs.reset ⟨.ok, evNone, 0#32⟩
  | faulted {i} (hgated : i.gated = true) (ho : r.overFlag = true) : Responds r i r ⟨.faulted, evNone, 0#32⟩
  | seq {i} (ho : i.gated = true → r.overFlag = false) (hneeds : i.needsMet r = false) :
      Responds r i { r with seqFlag := true } ⟨.seq, evNone, 0#32⟩
  | noRegister {k} (hwf : (Instr.rd k).wf = false) :
      Responds r (.rd k) { r with illFlag := true } ⟨.illegal, evNone, 0#32⟩

/-- An answer's registers and response are the next state's. -/
theorem State.answer_responds {s t : State} {r st ev d i q} (h : s.answer r st ev d = .next t) (hq : t.rsp = some q)
    (hr : Responds s.regs i r ⟨st, ev, d⟩) : Responds s.regs i t.regs q := by
  obtain ⟨rfl, rfl⟩ := State.answer_rsp h hq
  exact hr

/-- What a command can answer. -/
theorem exec_responds {i : Instr} {s t : State} {q : Response} (h : exec i s = .next t) (hq : t.rsp = some q) :
    Responds s.regs i t.regs q := by
  cases i with
  | nop => exact State.answer_responds h hq .nop
  | crcInit => exact State.answer_responds ((exec_crcInit s).symm.trans h) hq .crcInit
  | crcByte b => exact State.answer_responds ((exec_crcByte b s).symm.trans h) hq (.crcByte b)
  | tocLd b => exact State.answer_responds ((exec_tocLd b s).symm.trans h) hq (.tocLd b)
  | srst => exact State.answer_responds h hq .srst
  | fcbLd f =>
    rw [exec_fcbLd] at h
    split at h
    next hfcb => exact State.answer_responds h hq (.fcbLd f hfcb)
    next hfcb =>
      have hneeds : (Instr.fcbLd f).needsMet s.regs = false := by
        simpa [Instr.needsMet, Regs.wantsFcb_iff] using hfcb
      exact State.answer_responds h hq (.seq (by simp [Instr.gated]) hneeds)
  | accClr =>
    rw [exec_accClr] at h
    split at h
    next ho => exact State.answer_responds h hq (.faulted rfl ho)
    next ho => exact State.answer_responds h hq (.accClr (eq_false_of_ne_true ho))
  | pkt sd =>
    rw [exec_pkt] at h
    split at h
    next ho => exact State.answer_responds h hq (.faulted rfl ho)
    next ho =>
      replace ho := eq_false_of_ne_true ho
      split at h
      next hcount =>
        split at h
        next hfast =>
          obtain ⟨rfl, hle⟩ := hfast
          split at h
          next hsum => exact State.answer_responds h hq (.pktEmit ho hcount hsum)
          next hsum => exact State.answer_responds h hq (.pktAppend ho hcount (lt_of_le_of_ne hle hsum))
        next hslow =>
          have hslow : sd = true ∨ 60000 < s.regs.acc.toNat + s.regs.totalUs := by
            simpa [or_iff_not_imp_left] using hslow
          exact State.answer_responds h hq (.pktSplit sd ho hcount hslow)
      next hcount =>
        exact State.answer_responds h hq (.seq (fun _ => ho) (eq_false_of_ne_true hcount))
  | frm =>
    rw [exec_frm] at h
    split at h
    next ho => exact State.answer_responds h hq (.faulted rfl ho)
    next ho =>
      replace ho := eq_false_of_ne_true ho
      split at h
      next htoc =>
        split at h
        next hlt => exact State.answer_responds h hq (.frmAppend ho htoc hlt)
        next hge =>
          split at h
          next hsum => exact State.answer_responds h hq (.frmEmit ho htoc hsum)
          next hsum => exact State.answer_responds h hq (.overshoot ho htoc (by omega))
      next htoc => exact State.answer_responds h hq (.seq (fun _ => ho) (eq_false_of_ne_true htoc))
  | rd k =>
    rw [exec_rd] at h
    split at h
    next hnone =>
      have hwf : (Instr.rd k).wf = false := by simp [Instr.wf, ← regNameOf_isSome, hnone]
      exact State.answer_responds h hq (.noRegister hwf)
    next n hreg =>
      split at h
      next v hread => exact State.answer_responds h hq (.rd hreg hread)
      next hread =>
        have hneeds := (Regs.read_eq_none_iff_needsMet hreg s.regs).mp hread
        exact State.answer_responds h hq (.seq (by simp [Instr.gated]) hneeds)

/-- The event combinations that occur; only OK responses of `PKT` and `FRM` raise an event (30_encoding.md R82). -/
theorem Responds.events {r r' : Regs} {i : Instr} {q : Response} (h : Responds r i r' q) :
    q.ev ∈ [evNone, evAppendPkt, evAppendPktEmit, evAppendFrm, evAppendFrmEmit, evSplit] ∧
    (q.ev ≠ evNone → q.status = .ok ∧ (i = .frm ∨ ∃ sd, i = .pkt sd)) := by
  cases h with
  | pktEmit | pktAppend | pktSplit => exact ⟨by simp, fun _ => ⟨rfl, .inr ⟨_, rfl⟩⟩⟩
  | frmAppend | frmEmit => exact ⟨by simp, fun _ => ⟨rfl, .inl rfl⟩⟩
  | _ => exact ⟨by simp, fun hev => absurd rfl hev⟩

/-- A number below 2^32 is read back from the data word. -/
theorem data_ofNat {n : Nat} (h : n < 4294967296) : (BitVec.ofNat 32 n).toNat = n := by
  rw [BitVec.toNat_ofNat, Nat.mod_eq_of_lt h]

/-- `ACC` as data keeps its value. -/
theorem acc_setWidth (a : BitVec 17) : (a.setWidth 32).toNat = a.toNat :=
  BitVec.toNat_setWidth_of_le (by decide)

/-- The data of an OK response to `i` that left the registers `r` (30_encoding.md R83). -/
def OkData (i : Instr) (r : Regs) (d : DataWord) : Prop :=
  match i with
  | .nop | .srst => d = 0#32
  | .crcInit | .crcByte _ => d = r.crc
  | .tocLd b => d.toNat = tableUs b
  | .fcbLd _ => d.toNat = r.nframes.toNat * tableUs r.toc
  | .pkt _ | .frm | .accClr => d.toNat = r.acc.toNat
  | .rd k => ∃ n, regNameOf k = some n ∧ r.read n = some d

theorem Responds.okData {r r' : Regs} {i : Instr} {q : Response} (h : Responds r i r' q) (hok : q.status = .ok) :
    OkData i r' q.data := by
  cases h with
  | nop | srst | crcInit | crcByte | pktEmit | frmEmit | accClr => rfl
  | tocLd b =>
    obtain ⟨-, hle, -⟩ := frameUsOf_bounds (tocConfig b)
    exact (data_ofNat (by omega)).trans (tableUs_eq b).symm
  | fcbLd f hfcb =>
    have htotal : (fcbCount f).toNat * r.frameUs ≤ 3780000 :=
      (Regs.totalUs_bounds { r with nframes := fcbCount f }).1
    exact (data_ofNat (by omega)).trans (congrArg _ r.frameUs_eq)
  | pktAppend _ _ hsum => exact (data_ofNat (by omega)).trans (acc_ofNat (by omega)).symm
  | frmAppend _ _ hsum => exact (data_ofNat (by omega)).trans (acc_ofNat (by omega)).symm
  | pktSplit => exact acc_setWidth r.acc
  | rd hreg hread => exact ⟨_, hreg, hread⟩
  | overshoot | faulted | seq | noRegister => cases hok

/-- ILLEGAL, SEQ and FAULTED report nothing. -/
theorem Responds.faultData {r r' : Regs} {i : Instr} {q : Response} (h : Responds r i r' q)
    (hf : q.status = .illegal ∨ q.status = .seq ∨ q.status = .faulted) : q.data = 0#32 := by
  cases h with
  | faulted | seq | noRegister => rfl
  | _ => simp at hf

/-- OVERSHOOT reports `ACC` after the command, above the budget and below 120 ms (42_accumulator.md R139). -/
theorem Responds.overshootData {r r' : Regs} {i : Instr} {q : Response} (h : Responds r i r' q)
    (hover : q.status = .overshoot) :
    q.data.toNat = r'.acc.toNat ∧ (r.AccInRange → 60001 ≤ q.data.toNat ∧ q.data.toNat ≤ 119999) := by
  cases h with
  | overshoot ho _ hsum =>
    refine ⟨acc_setWidth _, fun ⟨hrange, _⟩ => ?_⟩
    have hacc := hrange ho
    obtain ⟨-, hle, -⟩ := r.frameUs_bounds
    rw [acc_setWidth, acc_ofNat (by omega)]
    omega
  | _ => cases hover

end Sys2Proof.Machine
end

section
/-! PROOFS. The family 30_encoding.md: the decoder, the encoder and the response word. -/

namespace Sys2Proof.Proofs

open Sys2Proof.Machine

/-- Settles O8: the fields of a command's word are the command's own. -/
theorem decodeOfEncode : Obligations.DecodeOfEncode :=
  fun _ hwf => decode_eq_command_iff_encode.mpr ⟨hwf, rfl⟩

/-- Settles O9: the converse reading of the same equivalence. -/
theorem encodeOfDecode : Obligations.EncodeOfDecode :=
  fun _ _ => decode_eq_command_iff_encode.mp

/-- Settles O6, row by row of the opcode table. -/
theorem decodeFollowsOpcodeTable : Obligations.DecodeFollowsOpcodeTable := by
  intro w
  refine ⟨decode_rowN rfl rfl, decode_rowN rfl rfl, fun b => decode_rowB rfl rfl rfl ?_,
    fun b => decode_rowB rfl rfl rfl ?_, fun f => decode_rowB rfl rfl rfl ?_, fun sd => decode_rowF,
    decode_rowN rfl rfl, decode_rowN rfl rfl, fun r => decode_rowR, decode_rowN rfl rfl⟩
  all_goals simp [cmdWord, Instr.opcode]

/-- Settles O7: the words by `decode_illegal_iff`, their effect by the model's law of an illegal step. -/
theorem reservedWordsAreIllegal : Obligations.ReservedWordsAreIllegal :=
  ⟨decode_illegal_iff, fun _ _ _ _ => step_illegal⟩

/-- Settles O11: the word is the three fields, one above the other. -/
theorem responseWordFields : Obligations.ResponseWordFields := by
  rintro ⟨st, ev, d⟩
  have hstatus : (st.code ++ ev.bits ++ d).extractLsb' 36 4 = st.code := by
    rw [BitVec.append_assoc]
    exact BitVec.extractLsb'_append_eq_left
  refine ⟨BitVec.extractLsb'_append_eq_right, ?_, ?_⟩
  · simp only [Response.word, Events.bits, BitVec.getLsbD_append]
    simp
  · rw [Response.word, hstatus]
    cases st <;> rfl

/-- Settles O39: the combinations are those of `Responds.events`, and an illegal word raises no event. -/
theorem eventCombinations : Obligations.EventCombinations := by
  intro s t w rest q hp h hq
  rcases hd : decode w with i | e
  · rw [step_run hp hd] at h
    obtain ⟨hev, hraises⟩ := (exec_responds h hq).events
    refine ⟨List.mem_map_of_mem (f := Events.bits) hev, fun hbits => ?_⟩
    obtain ⟨hok, hi⟩ := hraises (mt (congrArg Events.bits) hbits)
    exact ⟨hok, hi.imp (congrArg _) fun ⟨sd, hsd⟩ => ⟨sd, congrArg _ hsd⟩⟩
  · rw [step_illegal hp hd] at h
    obtain ⟨-, rfl⟩ := State.answer_rsp h hq
    simp [evNone, Events.bits]

/-- Settles O40: each kind of status has its data. -/
theorem responseData : Obligations.ResponseData := by
  intro i s t q _ h hq
  have hr := exec_responds h hq
  exact ⟨hr.okData, hr.faultData, hr.overshootData⟩

end Sys2Proof.Proofs
end

section
/-! SUPPORT. The CRC unit: shifts of a register with data xored into it are the divider fed the data's top bits. The
table, the byte recurrence and the bit-serial form are the case of eight shifts. -/

namespace Sys2Proof.Machine

/-! ### The divider fed from the top of a register -/

/-- A shift of the register with data xored in feeds the data's top bit and moves the rest of the data up. -/
theorem crcShift_xor_eq_serialBit (c y : BitVec 32) : crcShift (c ^^^ y) = crcSerialBit c y.msb ^^^ (y <<< 1) := by
  rw [crcShift, crcSerialBit, BitVec.msb_xor, BitVec.shiftLeft_xor_distrib]
  split
  · ac_rfl
  · rfl

/-- `n` shifts of the register with data xored in feed the data's top `n` bits, first bit first. -/
theorem crcShifts_xor_eq_foldl (n : Nat) (c y : BitVec 32) :
    crcShifts n (c ^^^ y) = ((List.range n).map y.getMsbD).foldl crcSerialBit c ^^^ (y <<< n) := by
  induction n generalizing c y with
  | zero => simp
  | succ n ih =>
    have hbits : (List.range n).map (y <<< 1).getMsbD = ((List.range n).map Nat.succ).map y.getMsbD := by
      simp [Function.comp_def]
    rw [crcShifts_succ, crcShift_xor_eq_serialBit, ih, hbits, ← BitVec.shiftLeft_add, Nat.add_comm 1 n,
      BitVec.msb_eq_getMsbD_zero, List.range_succ_eq_map, List.map_cons, List.foldl_cons]

/-- Eight shifts feed the byte in bits 31:24 (40_crc.md R102). -/
theorem crcShifts_eight_xor (c y : BitVec 32) :
    crcShifts 8 (c ^^^ y) = crcSerial c (y.extractLsb' 24 8) ^^^ (y <<< 8) := by
  have hbits : (List.range 8).map y.getMsbD = bitsMsbFirst (y.extractLsb' 24 8) := by
    simp [bitsMsbFirst, List.range_succ, BitVec.getMsbD]
  rw [crcShifts_xor_eq_foldl, hbits, crcSerial]

theorem byteOnTop_extract (b : Byte) : (b.setWidth 32 <<< 24).extractLsb' 24 8 = b := by
  apply BitVec.eq_of_getLsbD_eq
  intro k hk
  have hin : 24 + k < 32 := by omega
  simp [hk, hin]

theorem byteOnTop_shiftLeft (b : Byte) : b.setWidth 32 <<< 24 <<< 8 = 0#32 := by
  rw [← BitVec.shiftLeft_add, BitVec.shiftLeft_eq_zero le_rfl]

/-! ### The table, the byte recurrence and the bit-serial form -/

theorem crcShifts_eq_iterate (n : Nat) (r : BitVec 32) : crcShifts n r = crcShift^[n] r := by
  induction n generalizing r with
  | zero => rfl
  | succ n ih => exact ih _

/-- The table function is linear (40_crc.md R101). -/
theorem crcTable_xor (i j : Byte) : crcTable (i ^^^ j) = crcTable i ^^^ crcTable j := by
  rw [crcTable, BitVec.setWidth_xor, BitVec.shiftLeft_xor_distrib, crcShifts_xor, crcTable, crcTable]

@[simp] theorem crcTable_zero : crcTable 0#8 = 0#32 := by decide

/-- The bit-serial form shifts the register with the byte xored into its top. -/
theorem crcSerial_eq_crcShifts (c : BitVec 32) (b : Byte) :
    crcSerial c b = crcShifts 8 (c ^^^ b.setWidth 32 <<< 24) := by
  rw [crcShifts_eight_xor, byteOnTop_extract, byteOnTop_shiftLeft, BitVec.xor_zero]

/-- The table entry of a byte is what the divider makes of it from zero (40_crc.md R101). -/
theorem crcTable_eq_crcSerial (i : Byte) : crcTable i = crcSerial 0#32 i := by
  rw [crcSerial_eq_crcShifts, BitVec.zero_xor, crcTable]

/-- The table form and the bit-serial form agree: the low 24 bits of the register only move up, and its top byte meets
the byte fed in (40_crc.md R107). -/
theorem crcUpdate_eq_crcSerial (c : BitVec 32) (b : Byte) : crcUpdate c b = crcSerial c b :=
  calc (c <<< 8) ^^^ crcTable (c.extractLsb' 24 8 ^^^ b)
    _ = (c <<< 8) ^^^ crcSerial 0#32 (c.extractLsb' 24 8 ^^^ b) := by rw [crcTable_eq_crcSerial]
    _ = crcShifts 8 (0#32 ^^^ (c ^^^ b.setWidth 32 <<< 24)) := by
      rw [crcShifts_eight_xor, BitVec.extractLsb'_xor, byteOnTop_extract, BitVec.shiftLeft_xor_distrib,
        byteOnTop_shiftLeft, BitVec.xor_zero, BitVec.xor_comm]
    _ = crcSerial c b := by rw [BitVec.zero_xor, crcSerial_eq_crcShifts]

/-- Feeding a byte is linear in the register and the byte. -/
theorem crcUpdate_xor (c d : BitVec 32) (a b : Byte) :
    crcUpdate (c ^^^ d) (a ^^^ b) = crcUpdate c a ^^^ crcUpdate d b := by
  have hregroup (x y : BitVec 32) : c ^^^ d ^^^ (x ^^^ y) = c ^^^ x ^^^ (d ^^^ y) := by ac_rfl
  simp only [crcUpdate_eq_crcSerial, crcSerial_eq_crcShifts, ← crcShifts_xor, BitVec.setWidth_xor,
    BitVec.shiftLeft_xor_distrib, hregroup]

/-- A register moved up by `n` bits and fed its top byte, which stood `n` bits below the top, moves up by that byte:
nothing is left to divide. -/
theorem crcUpdate_ownByte {n : Nat} (hn : n ≤ 24) (c : BitVec 32) :
    crcUpdate (c <<< n) (c.extractLsb' (24 - n) 8) = c <<< (n + 8) := by
  have htop : (c <<< n).extractLsb' 24 8 = c.extractLsb' (24 - n) 8 := by
    apply BitVec.eq_of_getLsbD_eq
    intro k hk
    have hin : 24 + k < 32 := by omega
    have hlow : ¬ 24 + k < n := by omega
    simp only [BitVec.getLsbD_extractLsb', BitVec.getLsbD_shiftLeft, hk, hin, hlow, Nat.sub_add_comm hn]
    simp
  rw [crcUpdate, htop, BitVec.xor_self, crcTable_zero, BitVec.xor_zero, BitVec.shiftLeft_add]

/-! ### Streams -/

theorem crcStream_append (s t : List Byte) (c : BitVec 32) : crcStream (s ++ t) c = crcStream t (crcStream s c) :=
  List.foldl_append

/-- The stream is linear for byte strings of one length (40_crc.md R107). -/
theorem crcStream_xor {s t : List Byte} (hlen : s.length = t.length) (c d : BitVec 32) :
    crcStream (List.zipWith (· ^^^ ·) s t) (c ^^^ d) = crcStream s c ^^^ crcStream t d := by
  induction s generalizing t c d with
  | nil =>
    obtain rfl := List.length_eq_zero_iff.mp hlen.symm
    rfl
  | cons a s ih =>
    obtain _ | ⟨b, t⟩ := t
    · cases hlen
    · rw [List.zipWith_cons_cons, crcStream_cons, crcUpdate_xor]
      exact ih (Nat.succ.inj hlen) _ _

theorem crcStream_zeros (n : Nat) : crcStream (List.replicate n 0#8) 0#32 = 0#32 := by
  induction n with
  | zero => rfl
  | succ n ih => simpa [List.replicate_succ, crcStream_cons, crcUpdate] using ih

/-- The register's own bytes, most significant first, clear it (40_crc.md R107, "self-checking"). -/
theorem crcStream_ownBytes (c : BitVec 32) :
    crcStream [c.extractLsb' 24 8, c.extractLsb' 16 8, c.extractLsb' 8 8, c.extractLsb' 0 8] c = 0#32 := by
  have h0 : crcUpdate c (c.extractLsb' 24 8) = c <<< 8 := by simpa using crcUpdate_ownByte (Nat.zero_le 24) c
  have h8 : crcUpdate (c <<< 8) (c.extractLsb' 16 8) = c <<< 16 := crcUpdate_ownByte (by decide) c
  have h16 : crcUpdate (c <<< 16) (c.extractLsb' 8 8) = c <<< 24 := crcUpdate_ownByte (by decide) c
  have h24 : crcUpdate (c <<< 24) (c.extractLsb' 0 8) = c <<< 32 := crcUpdate_ownByte le_rfl c
  simp only [crcStream_cons, crcStream_nil, h0, h8, h16, h24]
  exact BitVec.shiftLeft_eq_zero le_rfl

end Sys2Proof.Machine
end

section
/-! SUPPORT. The page: the words of its checksum on the port, and its CRC field under a patch. -/

namespace Sys2Proof.Machine

/-! ### The words on the port -/

theorem runSteps_add {m : Nat} {s t : State} (h : runSteps m s = .next t) (n : Nat) :
    runSteps (m + n) s = runSteps n t := by
  induction m generalizing s with
  | zero => cases h; rw [Nat.zero_add]
  | succ m ih =>
    rw [Nat.succ_add]
    rcases hs : step s with u | f | f
    · rw [runSteps_succ hs] at h ⊢
      exact ih h
    · simp [runSteps, hs] at h
    · simp [runSteps, hs] at h

theorem portState_append (r : Regs) (ws vs : List CmdWord) (rest : List PortMove) (q : Option Response) :
    portState r (ws ++ vs) rest q = portState r ws (vs.map .command ++ rest) q := by
  simp [portState]

/-- `RD 1` responds the checksum in every state (43_system.md R152). -/
theorem exec_rd_crc (s : State) : exec (.rd 1#4) s = s.answer s.regs .ok evNone s.regs.crc := by
  rw [exec_rd, ← Regs.checksum_eq]; rfl

theorem step_rdCrcWord (r : Regs) (rest : List PortMove) (q : Option Response) :
    step { regs := r, pending := .command 0x8100#16 :: rest, rsp := q } =
      .next { regs := r, pending := rest, rsp := some ⟨.ok, evNone, r.crc⟩ } := by
  rw [step_run rfl (show decode 0x8100#16 = .command (.rd 1#4) by decide), exec_rd_crc]; rfl

/-! ### The CRC field -/

theorem zeroCrcField_length (page : List Byte) : (zeroCrcField page).length = page.length := List.length_mapIdx

/-- What is stored in the CRC field is zeroed with it (20_memory.md R54). -/
theorem zeroCrcField_patchCrc (page : List Byte) (c : DataWord) :
    zeroCrcField (patchCrc page c) = zeroCrcField page := by
  rw [zeroCrcField, patchCrc, List.mapIdx_mapIdx, zeroCrcField]
  congr 1
  funext k b
  by_cases hk : 22 ≤ k ∧ k ≤ 25
  · simp [hk]
  · simp only [Function.comp_apply, if_neg hk]
    repeat rw [if_neg (by omega)]

/-- The CRC field of a patched page holds the number, least significant byte first (20_memory.md R53). -/
theorem storedCrc_patchCrc {page : List Byte} (hlen : 26 ≤ page.length) (c : DataWord) :
    storedCrc (patchCrc page c) = c := by
  have hin {k : Nat} (hk : k ≤ 25) : k < page.length := by omega
  have hbytes : storedCrc (patchCrc page c) =
      c.extractLsb' 24 8 ++ c.extractLsb' 16 8 ++ c.extractLsb' 8 8 ++ c.extractLsb' 0 8 := by
    simp [storedCrc, patchCrc, hin]
  rw [hbytes, BitVec.extractLsb'_append_extractLsb'_eq_extractLsb' (start₁ := 16) (len₁ := 8) rfl,
    BitVec.extractLsb'_append_extractLsb'_eq_extractLsb' (len₁ := 8) rfl,
    BitVec.extractLsb'_append_extractLsb'_eq_extractLsb' (len₁ := 8) rfl]
  exact BitVec.extractLsb'_eq_self

end Sys2Proof.Machine
end

section
/-! PROOFS. The family 40_crc.md: the table, the two forms of `CRC_BYTE`, the laws of the checksum and the page. -/

namespace Sys2Proof.Proofs

open Sys2Proof.Machine

/-- Settles O14: `crcShifts` iterates the shift, which is linear; the entries are computed. -/
theorem crcTableFunction : Obligations.CrcTableFunction := by
  have hshift : crcShift =
      fun r : BitVec 32 => if r.getLsbD 31 then (r <<< 1) ^^^ 0x04C11DB7#32 else r <<< 1 := by
    funext r
    rw [crcShift, BitVec.msb_eq_getLsbD_last]; rfl
  refine ⟨fun i => ?_, by decide, crcTable_xor⟩
  rw [← hshift]
  exact crcShifts_eq_iterate 8 _

/-- Settles O15: the value `CRC_BYTE` writes is the bit-serial one, whose fold runs over the bits' numbers. -/
theorem crcByteIsBitSerial : Obligations.CrcByteIsBitSerial := by
  intro b s
  refine ⟨_, exec_crcByte b s, ?_⟩
  have hbits : bitsMsbFirst b = [7, 6, 5, 4, 3, 2, 1, 0].map b.getLsbD := rfl
  rw [crcUpdate_eq_crcSerial, crcSerial, hbits, List.foldl_map]
  simp only [crcSerialBit, BitVec.msb_eq_getLsbD_last]
  rfl

/-- Settles O17, law by law; the self-check is the stream's own bytes fed after it. -/
theorem crcLaws : Obligations.CrcLaws := by
  refine ⟨crcStream_append, fun s t c d hlen => crcStream_xor hlen c d, crcStream_zeros, fun s => ?_,
    crcUpdate_eq_crcSerial⟩
  rw [crcStream_append]
  exact crcStream_ownBytes _

/-- Settles O18: the words run in three parts, and a patch changes the zeroed bytes alone. -/
theorem pageChecksumIsReproduced : Obligations.PageChecksumIsReproduced := by
  refine ⟨fun page r rest q => ?_, fun page c hlen => ⟨?_, storedCrc_patchCrc hlen c⟩⟩
  · have hbytes := runSteps_crcByteWords (zeroCrcField page) { r with crc := 0#32 } (.command 0x8100#16 :: rest)
    rw [zeroCrcField_length] at hbytes
    rw [pageWords, runSteps_succ (step_crcInitWord r _ rest q), portState_append]
    calc runSteps (page.length + 1) _
      _ = runSteps 1 _ := runSteps_add hbytes 1
      _ = _ := runSteps_succ (step_rdCrcWord _ rest _) 0
  · rw [pageChecksum, zeroCrcField_patchCrc, pageChecksum]

/-- Settles O12. -/
theorem crcInitStartsChecksum : Obligations.CrcInitStartsChecksum :=
  ⟨by decide, exec_crcInit⟩

/-- Settles O13: `crcUpdate` is the recurrence by definition. -/
theorem crcByteFoldsByte : Obligations.CrcByteFoldsByte :=
  fun b => ⟨decode_crcByteWord b, exec_crcByte b⟩

end Sys2Proof.Proofs
end

section
/-! SUPPORT. The TOC decoder: the words of its commands, `TOC_LD` with numbers and the table for fields and the formula,
the fields of `TOC1`, and the reads of a loaded TOC. -/

namespace Sys2Proof

/-- A byte operand stands in the low byte of a word whose low byte is otherwise zero (30_encoding.md R70, R71). -/
theorem cmdWord_zero_or (op md : BitVec 4) (imm : Byte) :
    cmdWord op md 0#8 ||| imm.setWidth 16 = cmdWord op md imm := by
  have himm : imm.setWidth 16 = 0#4 ++ 0#4 ++ imm := BitVec.setWidth_eq_append (by decide)
  rw [himm, cmdWord, cmdWord, BitVec.or_append, BitVec.or_append, BitVec.or_zero, BitVec.or_zero, BitVec.zero_or]

theorem decode_tocLdWord (b : Byte) : decode (0x3000#16 ||| b.setWidth 16) = .command (.tocLd b) :=
  decode_eq_command_iff_encode.mpr ⟨rfl, (cmdWord_zero_or 3#4 0#4 b).symm⟩

theorem decode_fcbLdWord (f : Byte) : decode (0x4000#16 ||| f.setWidth 16) = .command (.fcbLd f) :=
  decode_eq_command_iff_encode.mpr ⟨rfl, (cmdWord_zero_or 4#4 0#4 f).symm⟩

namespace Machine

/-- `TOC_LD` with the code as a number and the duration from the table (41_toc.md R113, R117). -/
theorem exec_tocLd_table (b : Byte) (s : State) :
    exec (.tocLd b) s =
      s.answer
        { s.regs with
          toc := b, tocv := true, nfv := decide (b.toNat % 4 ≠ 3),
          nframes := if b.toNat % 4 = 3 then s.regs.nframes else if b.toNat % 4 = 0 then 1#6 else 2#6 }
        .ok evNone (BitVec.ofNat 32 (tableUs b)) := by
  simp only [exec_tocLd, tableUs_eq, fixedCount, ne_eq, tocCode_eq_three, tocCode_eq_zero]

/-! ### The single-frame TOC -/

/-- `TOC1` keeps `CONFIG` and `STEREO` (41_toc.md R112). -/
theorem toc1_configStereo (b : Byte) : (toc1 b).extractLsb' 2 6 = b.extractLsb' 2 6 := by
  rw [toc1, BitVec.extractLsb'_and]
  exact BitVec.and_allOnes

theorem tocConfig_toc1 (b : Byte) : tocConfig (toc1 b) = tocConfig b := by
  rw [tocConfig, toc1, BitVec.extractLsb'_and]
  exact BitVec.and_allOnes

theorem tocCode_toc1 (b : Byte) : tocCode (toc1 b) = 0#2 := by
  rw [tocCode, toc1, BitVec.extractLsb'_and]
  exact BitVec.and_zero

theorem tableUs_toc1 (b : Byte) : tableUs (toc1 b) = tableUs b := by
  rw [tableUs_eq, tableUs_eq, tocConfig_toc1]

/-- `TOC_LD` of a single-frame TOC: the duration of the packet it was made from, and a count of 1. -/
theorem exec_tocLd_toc1 (b : Byte) (s : State) :
    exec (.tocLd (toc1 b)) s =
      s.answer { s.regs with toc := toc1 b, tocv := true, nfv := true, nframes := 1#6 } .ok evNone
        (BitVec.ofNat 32 (tableUs b)) := by
  have hcode : (toc1 b).toNat % 4 = 0 := (tocCode_eq_zero _).mp (tocCode_toc1 b)
  simp [exec_tocLd_table, hcode, tableUs_toc1]

/-! ### Reading the loaded TOC -/

/-- `RD` of a register that holds a value (43_system.md R152). -/
theorem exec_rd_of_read {k : BitVec 4} {n : RegName} {s : State} {v : DataWord} (hk : regNameOf k = some n)
    (hv : s.regs.read n = some v) : exec (.rd k) s = s.answer s.regs .ok evNone v := by
  simp only [exec_rd, hk, hv]

theorem exec_rd_toc1 {s : State} (h : s.regs.tocv = true) :
    exec (.rd 6#4) s = s.answer s.regs .ok evNone ((toc1 s.regs.toc).setWidth 32) :=
  exec_rd_of_read (n := .toc1) rfl (if_pos h)

theorem exec_rd_frameUs {s : State} (h : s.regs.tocv = true) :
    exec (.rd 7#4) s = s.answer s.regs .ok evNone (BitVec.ofNat 32 (tableUs s.regs.toc)) := by
  rw [← Regs.frameUs_eq]
  exact exec_rd_of_read (n := .frameUs) rfl (if_pos h)

/-! ### The control byte -/

/-- The count of a control byte as a number (41_toc.md R115). -/
theorem fcbCount_toNat (f : Byte) : (fcbCount f).toNat = f.toNat % 64 := by
  simp [fcbCount, BitVec.extractLsb']

theorem fcbCount_eq (f : Byte) : fcbCount f = BitVec.ofNat 6 (f.toNat % 64) := by
  rw [← fcbCount_toNat, BitVec.ofNat_toNat, BitVec.setWidth_eq]

end Machine
end Sys2Proof
end

section
/-! PROOFS. The family 41_toc.md: `TOC_LD`, `FCB_LD` and the single-frame TOC. -/

namespace Sys2Proof.Proofs

open Sys2Proof.Machine

/-- Settles O19, with the code as a number and the duration from the table. -/
theorem tocLdLoadsToc : Obligations.TocLdLoadsToc :=
  fun b => ⟨decode_tocLdWord b, exec_tocLd_table b⟩

/-- Settles O20: the need of `FCB_LD` is met in the one case and not in the other. -/
theorem fcbLdLoadsControlByte : Obligations.FcbLdLoadsControlByte := by
  refine fun f => ⟨decode_fcbLdWord f, fun s htocv hcode => ?_, fun s hneed => ?_⟩
  · have hwants : s.regs.wantsFcb = true := s.regs.wantsFcb_iff.mpr ⟨htocv, hcode⟩
    rw [exec_fcbLd, if_pos hwants, fcbCount_toNat, fcbCount_eq, Regs.frameUs_eq]
    rfl
  · have hwants : ¬ s.regs.wantsFcb = true := by
      rw [Regs.wantsFcb_iff]
      rintro ⟨htocv, hcode⟩
      exact hneed.elim (by simp [htocv]) (· hcode)
    rw [exec_fcbLd, if_neg hwants]

/-- Settles O21: after `TOC_LD b` the TOC holds a value, so `RD 6` gives `TOC1`; loading that responds the same duration,
and `RD 7` reads it back. -/
theorem singleFrameToc : Obligations.SingleFrameToc := by
  intro b s
  refine ⟨_, _, _, exec_tocLd_table b s, exec_rd_toc1 rfl, exec_tocLd_toc1 b _, rfl, rfl, toc1_configStereo b,
    tocCode_toc1 b, rfl, rfl, exec_rd_frameUs rfl, ?_⟩
  exact congrArg (fun us => some (Response.mk .ok evNone (BitVec.ofNat 32 us))) (tableUs_toc1 b)

end Sys2Proof.Proofs
end

section
/-! SUPPORT. The accumulator's commands, each outcome under the condition that decides for it
(42_accumulator.md R134, R136, R138). -/

namespace Sys2Proof.Machine

/-- While `OVER` is 1 every gated command is FAULTED and changes nothing (43_system.md R154). -/
theorem exec_gated_of_over {i : Instr} {s : State} (hgated : i.gated = true) (ho : s.regs.overFlag = true) :
    exec i s = s.answer s.regs .faulted evNone 0#32 := by
  cases i with
  | pkt sd => rw [exec_pkt, if_pos ho]
  | frm => rw [exec_frm, if_pos ho]
  | accClr => rw [exec_accClr, if_pos ho]
  | _ => cases hgated

theorem exec_accClr_of_not_over {s : State} (ho : s.regs.overFlag = false) :
    exec .accClr s = s.answer { s.regs with acc := 0#17 } .ok evNone 0#32 := by
  rw [exec_accClr, if_neg (ne_true_of_eq_false ho)]

section Pkt

variable {s : State}

theorem exec_pkt_of_noCount {sd : Bool} (ho : s.regs.overFlag = false)
    (hnone : s.regs.tocv = false ∨ s.regs.nfv = false) :
    exec (.pkt sd) s = s.answer { s.regs with seqFlag := true } .seq evNone 0#32 := by
  have hcount : s.regs.hasCount = false := Bool.and_eq_false_iff.mpr hnone
  rw [exec_pkt, if_neg (ne_true_of_eq_false ho), if_neg (ne_true_of_eq_false hcount)]

variable (ho : s.regs.overFlag = false) (htoc : s.regs.tocv = true) (hnfv : s.regs.nfv = true)
include ho htoc hnfv

/-- With `OVER` 0 and both registers loaded, the sum decides. -/
theorem exec_pkt_of_count (sd : Bool) :
    exec (.pkt sd) s =
      if sd = false ∧ s.regs.acc.toNat + s.regs.totalUs ≤ 60000 then
        if s.regs.acc.toNat + s.regs.totalUs = 60000 then
          s.answer { s.regs with acc := 0#17 } .ok evAppendPktEmit 0#32
        else
          s.answer { s.regs with acc := BitVec.ofNat 17 (s.regs.acc.toNat + s.regs.totalUs) } .ok evAppendPkt
            (BitVec.ofNat 32 (s.regs.acc.toNat + s.regs.totalUs))
      else s.answer s.regs .ok evSplit (s.regs.acc.setWidth 32) := by
  have hcount : s.regs.hasCount = true := by simp [Regs.hasCount, htoc, hnfv]
  rw [exec_pkt, if_neg (ne_true_of_eq_false ho), if_pos hcount]

theorem exec_pkt_emit (hsum : s.regs.acc.toNat + s.regs.totalUs = 60000) :
    exec (.pkt false) s = s.answer { s.regs with acc := 0#17 } .ok evAppendPktEmit 0#32 := by
  rw [exec_pkt_of_count ho htoc hnfv, if_pos ⟨rfl, hsum.le⟩, if_pos hsum]

theorem exec_pkt_append (hsum : s.regs.acc.toNat + s.regs.totalUs < 60000) :
    exec (.pkt false) s =
      s.answer { s.regs with acc := BitVec.ofNat 17 (s.regs.acc.toNat + s.regs.totalUs) } .ok evAppendPkt
        (BitVec.ofNat 32 (s.regs.acc.toNat + s.regs.totalUs)) := by
  rw [exec_pkt_of_count ho htoc hnfv, if_pos ⟨rfl, hsum.le⟩, if_neg hsum.ne]

theorem exec_pkt_split {sd : Bool} (hslow : sd = true ∨ 60000 < s.regs.acc.toNat + s.regs.totalUs) :
    exec (.pkt sd) s = s.answer s.regs .ok evSplit (s.regs.acc.setWidth 32) := by
  have hfast : ¬ (sd = false ∧ s.regs.acc.toNat + s.regs.totalUs ≤ 60000) := by
    simpa [or_iff_not_imp_left] using hslow
  rw [exec_pkt_of_count ho htoc hnfv, if_neg hfast]

end Pkt

section Frm

variable {s : State} (ho : s.regs.overFlag = false)
include ho

theorem exec_frm_of_noToc (htoc : s.regs.tocv = false) :
    exec .frm s = s.answer { s.regs with seqFlag := true } .seq evNone 0#32 := by
  rw [exec_frm, if_neg (ne_true_of_eq_false ho), if_neg (ne_true_of_eq_false htoc)]

variable (htoc : s.regs.tocv = true)
include htoc

theorem exec_frm_append (hsum : s.regs.acc.toNat + s.regs.frameUs < 60000) :
    exec .frm s =
      s.answer { s.regs with acc := BitVec.ofNat 17 (s.regs.acc.toNat + s.regs.frameUs) } .ok evAppendFrm
        (BitVec.ofNat 32 (s.regs.acc.toNat + s.regs.frameUs)) := by
  rw [exec_frm, if_neg (ne_true_of_eq_false ho), if_pos htoc, if_pos hsum]

theorem exec_frm_emit (hsum : s.regs.acc.toNat + s.regs.frameUs = 60000) :
    exec .frm s = s.answer { s.regs with acc := 0#17 } .ok evAppendFrmEmit 0#32 := by
  rw [exec_frm, if_neg (ne_true_of_eq_false ho), if_pos htoc, if_neg hsum.not_lt, if_pos hsum]

theorem exec_frm_overshoot (hsum : 60000 < s.regs.acc.toNat + s.regs.frameUs) :
    exec .frm s =
      s.answer { s.regs with acc := BitVec.ofNat 17 (s.regs.acc.toNat + s.regs.frameUs), overFlag := true }
        .overshoot evNone ((BitVec.ofNat 17 (s.regs.acc.toNat + s.regs.frameUs)).setWidth 32) := by
  rw [exec_frm, if_neg (ne_true_of_eq_false ho), if_pos htoc, if_neg hsum.not_gt, if_neg hsum.ne']

end Frm

/-- With `ACC` in range, the sum of an overshooting `FRM` fits `ACC` (42_accumulator.md R139). -/
theorem Regs.AccInRange.frm_sum_le {r : Regs} (hr : r.AccInRange) (ho : r.overFlag = false) :
    r.acc.toNat + r.frameUs ≤ 119999 := by
  have hacc := hr.1 ho
  obtain ⟨-, hle, -⟩ := r.frameUs_bounds
  omega

/-- The number stored in `ACC`, widened to the data word, is the number. -/
theorem acc_ofNat_setWidth {n : Nat} (h : n < 131072) : (BitVec.ofNat 17 n).setWidth 32 = BitVec.ofNat 32 n := by
  apply BitVec.eq_of_toNat_eq
  rw [acc_setWidth, acc_ofNat h, data_ofNat (by omega)]

/-- A command that left the registers as they were does the same again. -/
theorem exec_again {i : Instr} {s t : State} (h : exec i s = .next t) (hregs : t.regs = s.regs) :
    exec i t = .next t := by
  obtain ⟨r, st, ev, d, hx⟩ := exec_answers i s.regs
  rw [hx t hregs]
  rw [hx s rfl, State.answer_next] at h
  subst h
  rfl

theorem exec_rd_acc (s : State) : exec (.rd 11#4) s = s.answer s.regs .ok evNone (s.regs.acc.setWidth 32) := rfl

theorem step_frmWord {r : Regs} (ws : List CmdWord) (rest : List PortMove) (q : Option Response)
    (ho : r.overFlag = false) (htoc : r.tocv = true) (hsum : r.acc.toNat + r.frameUs < 60000) :
    step (portState r (0x6000#16 :: ws) rest q) =
      .next (portState { r with acc := BitVec.ofNat 17 (r.acc.toNat + r.frameUs) } ws rest
        (some ⟨.ok, evAppendFrm, BitVec.ofNat 32 (r.acc.toNat + r.frameUs)⟩)) := by
  rw [step_run rfl (show decode 0x6000#16 = .command .frm by decide)]
  exact exec_frm_append ho htoc hsum

end Sys2Proof.Machine
end

section
/-! SUPPORT. What a command does to `ACC` and `OVER`, read off its outcome; what every step keeps, and what every run
without a reset keeps. -/

namespace Sys2Proof.Machine

section Responds

variable {i : Instr} {r r' : Regs} {q : Response} (h : Responds r i r' q)
include h

/-- `SRST` apart, a command of another unit, and one that faults short of an overshoot, leave the accumulator alone and
raise no event (42_accumulator.md R133, R140 P6). -/
theorem Responds.undisturbed
    (hi : (i.gated = false ∧ i ≠ .srst) ∨ (q.status ≠ .ok ∧ q.status ≠ .overshoot)) :
    r'.acc = r.acc ∧ r'.overFlag = r.overFlag ∧ q.ev = evNone := by
  cases h with
  | pktEmit | pktAppend | pktSplit | frmAppend | frmEmit | overshoot | accClr | srst => simp [Instr.gated] at hi
  | _ => exact ⟨rfl, rfl, rfl⟩

/-- Only `FRM` sets `OVER` (42_accumulator.md R140 P5). -/
theorem Responds.frm_of_over_rises (ho : r.overFlag = false) (ho' : r'.overFlag = true) : i = .frm := by
  cases h with
  | overshoot => rfl
  | srst => cases ho'
  | _ => exact absurd ho' (ne_true_of_eq_false ho)

/-- An emit comes from a sum of exactly the budget (42_accumulator.md R140 P2). -/
theorem Responds.emit (he : q.ev.emit = true) :
    r'.acc = 0#17 ∧
    ((i = .pkt false ∧ r.acc.toNat + r.totalUs = 60000) ∨ (i = .frm ∧ r.acc.toNat + r.frameUs = 60000)) := by
  cases h with
  | pktEmit _ _ hsum => exact ⟨rfl, .inl ⟨rfl, hsum⟩⟩
  | frmEmit _ _ hsum => exact ⟨rfl, .inr ⟨rfl, hsum⟩⟩
  | _ => cases he

/-- An overshoot stores the sum, narrowed, and sets `OVER` (42_accumulator.md R136; log 6). -/
theorem Responds.of_overshoot (hst : q.status = .overshoot) :
    r.overFlag = false ∧ r' = { r with acc := BitVec.ofNat 17 (r.acc.toNat + r.frameUs), overFlag := true } ∧
    q.ev = evNone := by
  cases h with
  | overshoot ho => exact ⟨ho, rfl, rfl⟩
  | _ => cases hst

/-- Only `PKT` answers SPLIT, and it leaves the registers as they were (42_accumulator.md R135). -/
theorem Responds.of_split (hsplit : q.ev.split = true) : r' = r := by
  cases h with
  | pktSplit => rfl
  | _ => cases hsplit

/-- While `OVER` is 1 nothing but `SRST` moves the accumulator (42_accumulator.md R140 P4). -/
theorem Responds.of_over (ho : r.overFlag = true) (hi : i ≠ .srst) :
    r'.overFlag = true ∧ r'.acc = r.acc ∧ q.ev = evNone := by
  cases h with
  | srst => exact absurd rfl hi
  | pktEmit ho' | pktAppend ho' | pktSplit _ ho' | frmAppend ho' | frmEmit ho' | overshoot ho' | accClr ho' =>
    exact absurd ho (ne_true_of_eq_false ho')
  | _ => exact ⟨ho, rfl, rfl⟩

theorem Responds.keeps_accInRange (hr : r.AccInRange) : r'.AccInRange := by
  cases h with
  | pktEmit ho | frmEmit ho | accClr ho => simp [Regs.AccInRange, ho]
  | srst => decide
  | pktAppend ho _ hsum | frmAppend ho _ hsum =>
    refine ⟨fun _ => ?_, fun ho' => absurd ho' (ne_true_of_eq_false ho)⟩
    rw [acc_ofNat (by omega)]
    omega
  | overshoot ho _ hsum =>
    have hle := hr.frm_sum_le ho
    refine ⟨nofun, fun _ => ?_⟩
    rw [acc_ofNat (by omega)]
    omega
  | _ => exact hr

/-- The counts of codes 0, 1 and 2 are those `TOC_LD` fixed, and `FCB_LD` writes one only for code 3. -/
theorem Responds.keeps_countBelongs (hr : r.CountBelongs) : r'.CountBelongs := by
  cases h with
  | tocLd b =>
    refine ⟨fun _ => rfl, fun _ (hcode : b.toNat % 4 = 0) => ?_,
      fun _ (hcode : b.toNat % 4 = 1 ∨ b.toNat % 4 = 2) => ?_⟩
    · simp [tocCode_eq_three, fixedCount, tocCode_eq_zero, hcode]
    · have h3 : b.toNat % 4 ≠ 3 := by omega
      have h0 : b.toNat % 4 ≠ 0 := by omega
      simp [tocCode_eq_three, fixedCount, tocCode_eq_zero, h3, h0]
  | fcbLd f hfcb =>
    obtain ⟨htocv, hcode⟩ := r.wantsFcb_iff.mp hfcb
    exact ⟨fun _ => htocv, fun _ h0 => absurd (hcode.symm.trans h0) (by decide),
      fun _ h12 => absurd h12 (by simp [hcode])⟩
  | srst => decide
  | _ => exact hr

/-- Every duration is a multiple of 2500, so a sum below the budget is at most 57500, and one above it at least 62500
(42_accumulator.md R137). -/
theorem Responds.keeps_accOnGrid (hr : r.AccOnGrid) : r'.AccOnGrid := by
  obtain ⟨hmod, hlow, -⟩ := id hr
  obtain ⟨-, hle, hframe⟩ := r.frameUs_bounds
  obtain ⟨-, htotal⟩ := r.totalUs_bounds
  cases h with
  | pktEmit ho | frmEmit ho | accClr ho => simp [Regs.AccOnGrid, ho]
  | srst => decide
  | pktAppend ho _ hsum | frmAppend ho _ hsum =>
    refine ⟨?_, fun _ => ?_, fun ho' => absurd ho' (ne_true_of_eq_false ho)⟩
    all_goals rw [acc_ofNat (by omega)]; omega
  | overshoot ho _ hsum =>
    have hacc := hlow ho
    refine ⟨?_, nofun, fun _ => ?_⟩
    all_goals rw [acc_ofNat (by omega)]; omega
  | _ => exact hr

end Responds

/-! ### Steps -/

/-- What a command leaves, the response with it. -/
theorem exec_next_responds {i : Instr} {s t : State} (h : exec i s = .next t) :
    ∃ q, t.rsp = some q ∧ Responds s.regs i t.regs q := by
  obtain ⟨q, hq⟩ := exec_rsp h
  exact ⟨q, hq, exec_responds h hq⟩

/-- What a command word does to the registers: its command's effect, or ILLEGAL. -/
theorem step_responds {s t : State} {w : CmdWord} {rest : List PortMove} {q : Response}
    (hp : s.pending = .command w :: rest) (h : step s = .next t) (hq : t.rsp = some q) :
    (∃ i, decode w = .command i ∧ Responds s.regs i t.regs q) ∨
    (∃ e, decode w = .illegal e ∧ t.regs = { s.regs with illFlag := true } ∧ q = ⟨.illegal, evNone, 0#32⟩) := by
  rcases hd : decode w with i | e
  · rw [step_run hp hd] at h
    exact .inl ⟨i, rfl, exec_responds (s := { s with pending := rest }) h hq⟩
  · rw [step_illegal hp hd] at h
    obtain ⟨rfl, rfl⟩ := State.answer_rsp h hq
    exact .inr ⟨e, rfl, rfl, rfl⟩

/-- What holds at reset, does not read `ILL`, and is kept by every command is kept by every step. -/
theorem step_keeps {P : Regs → Prop} (hreset : P Regs.reset) (hill : ∀ r, P r → P { r with illFlag := true })
    (hcommand : ∀ i r r' q, Responds r i r' q → P r → P r') {s t : State} (hs : P s.regs) (h : step s = .next t) :
    P t.regs := by
  obtain ⟨-, rfl⟩ | ⟨rest, -, rfl⟩ | ⟨w, rest, e, -, -, rfl⟩ | ⟨w, rest, i, -, -, hx⟩ := step_cases h
  · exact hs
  · exact hreset
  · exact hill _ hs
  · obtain ⟨q, -, hr⟩ := exec_next_responds hx
    exact hcommand i _ _ q hr hs

/-- A step takes the oldest move off the port. -/
theorem step_pending {s t : State} (h : step s = .next t) : t.pending = s.pending.tail := by
  obtain ⟨hp, rfl⟩ | ⟨rest, hp, rfl⟩ | ⟨w, rest, e, hp, -, rfl⟩ | ⟨w, rest, i, hp, -, hx⟩ := step_cases h
  · simp [hp]
  · simp [hp]
  · simp [hp]
  · rw [(exec_leaves hx).1, hp]; rfl

/-- What every step without a reset keeps, every run without a reset keeps. -/
theorem runSteps_keeps {P : State → Prop}
    (hstep : ∀ s t, P s → (∀ m ∈ s.pending.take 1, m.resets = false) → step s = .next t → P t)
    {n : Nat} {s t : State} (hs : P s) (hmoves : ∀ m ∈ s.pending.take n, m.resets = false)
    (h : runSteps n s = .next t) : P t := by
  induction n generalizing s with
  | zero => cases h; exact hs
  | succ n ih =>
    rcases hu : step s with u | f | f
    · rw [runSteps_succ hu] at h
      rw [Nat.add_comm, List.take_add, List.drop_one, ← step_pending hu, List.forall_mem_append] at hmoves
      obtain ⟨hfirst, hlater⟩ := hmoves
      exact ih (hstep s u hs hfirst hu) hlater h
    · simp [runSteps, hu] at h
    · simp [runSteps, hu] at h

/-- The fatal state: `OVER` is 1, `ACC` is `a`, and the last response raised no event (42_accumulator.md R132, R139). -/
def State.OvershotAt (a : BitVec 17) (s : State) : Prop :=
  s.regs.overFlag = true ∧ s.regs.acc = a ∧ ∀ q, s.rsp = some q → q.ev = evNone

theorem step_keeps_overshotAt {a : BitVec 17} {s t : State} (hs : s.OvershotAt a)
    (hmove : ∀ m ∈ s.pending.take 1, m.resets = false) (h : step s = .next t) : t.OvershotAt a := by
  obtain ⟨ho, hacc, -⟩ := id hs
  obtain ⟨-, rfl⟩ | ⟨rest, hp, -⟩ | ⟨w, rest, e, -, -, rfl⟩ | ⟨w, rest, i, hp, hd, hx⟩ := step_cases h
  · exact hs
  · exact absurd (hmove .hardReset (by simp [hp])) (by simp [PortMove.resets])
  · exact ⟨ho, hacc, by rintro _ ⟨⟩; rfl⟩
  · have hi : i ≠ .srst := by simpa [PortMove.resets, hd] using hmove (.command w) (by simp [hp])
    obtain ⟨q, hq, hr⟩ := exec_next_responds hx
    obtain ⟨ho', hacc', hev⟩ := hr.of_over ho hi
    exact ⟨ho', hacc'.trans hacc, by simp [hq, hev]⟩

/-! ### The flush state -/

theorem Regs.flushState_empty {r : Regs} (ho : r.overFlag = false) (hacc : r.acc.toNat = 0) :
    r.flushState = some .empty := by
  simp [Regs.flushState, ho, hacc]

theorem Regs.flushState_filling {r : Regs} (ho : r.overFlag = false) (hpos : 0 < r.acc.toNat)
    (hle : r.acc.toNat ≤ 59999) : r.flushState = some .filling := by
  simp [Regs.flushState, ho, hpos.ne', hle]

/-- A stored sum above 0 and below the budget is the state FILLING (42_accumulator.md R132). -/
theorem Regs.flushState_stored_filling {r : Regs} {n : Nat} (ho : r.overFlag = false) (hpos : 0 < n) (hlt : n < 60000) :
    Regs.flushState { r with acc := BitVec.ofNat 17 n } = some .filling := by
  have hacc := acc_ofNat (n := n) (by omega)
  refine Regs.flushState_filling ho ?_ ?_
  all_goals rw [hacc]; omega

theorem Regs.flushState_overshot {r : Regs} (ho : r.overFlag = true) : r.flushState = some .overshot := by
  simp [Regs.flushState, ho]

theorem Regs.flushState_congr {r r' : Regs} (ho : r'.overFlag = r.overFlag) (hacc : r'.acc = r.acc) :
    r'.flushState = r.flushState := by
  simp [Regs.flushState, ho, hacc]

end Sys2Proof.Machine
end

section
/-! SUPPORT. The ghost host of log 13: what it does at one move, and the invariant it keeps with the block. -/

namespace Sys2Proof.Machine

/-- The host after the response `q` to the command `i` that found the registers `r` (42_accumulator.md R131). -/
def HostTrack.heed (h : HostTrack) (i : Instr) (r : Regs) (q : Response) : HostTrack :=
  if i = .srst ∨ i = .accClr then h.clear else if q.status = .ok then h.obey r q else h

/-! ### The host's moves -/

theorem HostTrack.after_idle {h : HostTrack} {s t : State} (hp : s.pending = []) : h.after s t = h := by
  simp [HostTrack.after, fetch_idle hp]

theorem HostTrack.after_reset {h : HostTrack} {s t : State} {rest} (hp : s.pending = .hardReset :: rest) :
    h.after s t = h.clear := by
  simp [HostTrack.after, fetch_reset hp]

theorem HostTrack.after_illegal {h : HostTrack} {s t : State} {w rest e} (hp : s.pending = .command w :: rest)
    (hd : decode w = .illegal e) : h.after s t = h := by
  simp [HostTrack.after, fetch_illegal hp hd]

theorem HostTrack.after_run {h : HostTrack} {s t : State} {w rest i q} (hp : s.pending = .command w :: rest)
    (hd : decode w = .command i) (hq : t.rsp = some q) : h.after s t = h.heed i s.regs q := by
  simp [HostTrack.after, HostTrack.heed, fetch_run hp hd, hq]

theorem HostTrack.heed_clears {h : HostTrack} {i : Instr} {r : Regs} {q : Response} (hi : i = .srst ∨ i = .accClr) :
    h.heed i r q = h.clear := if_pos hi

/-- A host that issued neither `SRST` nor `ACC_CLR` leaves its buffer alone at a fault and at a response without an
`APPEND` or an `EMIT`. -/
theorem HostTrack.heed_ignores {h : HostTrack} {i : Instr} {r : Regs} {q : Response}
    (hi : ¬ (i = .srst ∨ i = .accClr)) (hq : q.status ≠ .ok ∨ q.ev = evNone ∨ q.ev = evSplit) :
    h.heed i r q = h := by
  rw [HostTrack.heed, if_neg hi]
  split
  next hok =>
    obtain hst | hev | hev := hq
    · exact absurd hok hst
    · simp [HostTrack.obey, hev, evNone]
    · simp [HostTrack.obey, hev, evSplit]
  next => rfl

theorem durationOf_append (buf : List Piece) (p : Piece) : durationOf (buf ++ [p]) = durationOf buf + p.us := by
  simp [durationOf]

/-! ### The tracking invariant -/

/-- What a block and its host keep apart from the range of `ACC` (42_accumulator.md R140 P3). -/
def HostTrack.Tracks (h : HostTrack) (r : Regs) : Prop :=
  (r.overFlag = false → h.unitUs = r.acc.toNat) ∧ ∀ u ∈ h.units, durationOf u = 60000

/-- A cleared buffer has the duration of an empty `ACC`. -/
theorem HostTrack.Tracks.clear {h : HostTrack} {r r' : Regs} (ht : h.Tracks r)
    (hr' : r'.overFlag = false → r'.acc.toNat = 0) : h.clear.Tracks r' :=
  ⟨fun ho => (hr' ho).symm, ht.2⟩

/-- Appending a piece adds its duration, as the block adds it to `ACC`. -/
theorem HostTrack.Tracks.append {h : HostTrack} {r r' : Regs} (ht : h.Tracks r) (ho : r.overFlag = false) {p : Piece}
    (hr' : r'.acc.toNat = r.acc.toNat + p.us) : HostTrack.Tracks ⟨h.buf ++ [p], h.units⟩ r' := by
  obtain ⟨hbuf, hunits⟩ := ht
  refine ⟨fun _ => ?_, hunits⟩
  rw [HostTrack.unitUs, durationOf_append, hr', ← hbuf ho]; rfl

/-- A unit emitted when the sum is the budget is as long as the budget. -/
theorem HostTrack.Tracks.emit {h : HostTrack} {r r' : Regs} (ht : h.Tracks r) (ho : r.overFlag = false) {p : Piece}
    (hsum : r.acc.toNat + p.us = 60000) (hr' : r'.acc = 0#17) :
    HostTrack.Tracks ⟨[], h.units ++ [h.buf ++ [p]]⟩ r' := by
  obtain ⟨hbuf, hunits⟩ := ht
  refine ⟨fun _ => by rw [hr']; rfl, List.forall_mem_append.mpr ⟨hunits, List.forall_mem_singleton.mpr ?_⟩⟩
  rw [durationOf_append, ← hsum, ← hbuf ho]; rfl

/-- Every command and the host's obedience to its response keep the host's buffer in step with `ACC`. -/
theorem Responds.keeps_tracks {i : Instr} {r r' : Regs} {q : Response} {h : HostTrack} (hr : Responds r i r' q)
    (ht : h.Tracks r) : (h.heed i r q).Tracks r' := by
  cases hr with
  | pktEmit ho _ hsum => exact ht.emit (p := .packet r.totalUs) ho hsum rfl
  | frmEmit ho _ hsum => exact ht.emit (p := .frame (toc1 r.toc) r.frameUs) ho hsum rfl
  | pktAppend ho _ hsum => exact ht.append (p := .packet r.totalUs) ho (acc_ofNat (by omega))
  | frmAppend ho _ hsum => exact ht.append (p := .frame (toc1 r.toc) r.frameUs) ho (acc_ofNat (by omega))
  | overshoot _ _ _ =>
    rw [HostTrack.heed_ignores (by simp) (by simp)]
    exact ⟨nofun, ht.2⟩
  | accClr _ =>
    rw [HostTrack.heed_clears (by simp)]
    exact ht.clear fun _ => rfl
  | srst =>
    rw [HostTrack.heed_clears (by simp)]
    exact ht.clear fun _ => rfl
  | faulted _ ho =>
    by_cases hi : i = .srst ∨ i = .accClr
    · rw [HostTrack.heed_clears hi]
      exact ht.clear fun ho' => absurd ho (ne_true_of_eq_false ho')
    · rw [HostTrack.heed_ignores hi (by simp)]
      exact ht
  | seq _ hneeds =>
    have hi : ¬ (i = .srst ∨ i = .accClr) := by rintro (rfl | rfl) <;> cases hneeds
    rw [HostTrack.heed_ignores hi (by simp)]
    exact ht
  | _ =>
    rw [HostTrack.heed_ignores (by simp) (by simp)]
    exact ht

/-- Every step of the block and its host keeps the host's buffer in step with `ACC`. -/
theorem step_keeps_tracks {s t : State} {h : HostTrack} (ht : h.Tracks s.regs) (hstep : step s = .next t) :
    (h.after s t).Tracks t.regs := by
  obtain ⟨hp, rfl⟩ | ⟨rest, hp, rfl⟩ | ⟨w, rest, e, hp, hd, rfl⟩ | ⟨w, rest, i, hp, hd, hx⟩ := step_cases hstep
  · rw [HostTrack.after_idle hp]
    exact ht
  · rw [HostTrack.after_reset hp]
    exact ht.clear fun _ => rfl
  · rw [HostTrack.after_illegal hp hd]
    exact ht
  · obtain ⟨q, hq, hr⟩ := exec_next_responds hx
    rw [HostTrack.after_run hp hd hq]
    exact hr.keeps_tracks ht

theorem step_keeps_accInRange {s t : State} (hs : s.regs.AccInRange) (h : step s = .next t) : t.regs.AccInRange :=
  step_keeps (P := Regs.AccInRange) (by decide) (fun _ => id) (fun _ _ _ _ hr => hr.keeps_accInRange) hs h

end Sys2Proof.Machine
end

section
/-! PROOFS. The family 42_accumulator.md: `PKT`, `FRM` and `ACC_CLR`, the flush state machine, and what every step keeps. -/

namespace Sys2Proof.Proofs

open Sys2Proof.Machine

/-- Settles O46: the range of `ACC` and the count's belonging are each kept by every step. -/
theorem stepKeepsInvariant : Obligations.StepKeepsInvariant := by
  rintro s t ⟨hacc, hcount⟩ h
  exact ⟨step_keeps_accInRange hacc h,
    step_keeps (P := Regs.CountBelongs) (by decide) (fun _ => id) (fun _ _ _ _ hr => hr.keeps_countBelongs) hcount h⟩

/-- Settles O49: the range of `ACC`, and the host's buffer in step with it. -/
theorem emittedUnitsAreExact : Obligations.EmittedUnitsAreExact := by
  rintro s t h ⟨hacc, htracks⟩ hstep
  exact ⟨step_keeps_accInRange hacc hstep, step_keeps_tracks htracks hstep⟩

/-- Settles O50: the fatal state is kept by every step without a reset, hence by every run without one. -/
theorem overshotIsFatal : Obligations.OvershotIsFatal := by
  intro n s t ho hev hmoves h
  exact runSteps_keeps (P := State.OvershotAt s.regs.acc) (fun _ _ => step_keeps_overshotAt) ⟨ho, rfl, hev⟩ hmoves h

/-- Settles O22, by the sum's place at the budget. -/
theorem pktTakesPathDecision : Obligations.PktTakesPathDecision := by
  refine ⟨by decide, by decide, fun sd s ho => exec_gated_of_over rfl ho, fun sd s => exec_pkt_of_noCount,
    fun sd s ho htoc hnfv => ?_⟩
  rw [← Regs.totalUs_eq]
  split
  next hemit =>
    obtain ⟨rfl, hsum⟩ := hemit
    exact exec_pkt_emit ho htoc hnfv hsum
  next hne =>
    split
    next happend =>
      obtain ⟨rfl, hsum⟩ := happend
      exact exec_pkt_append ho htoc hnfv hsum
    next hge =>
      have hslow : sd = true ∨ 60000 < s.regs.acc.toNat + s.regs.totalUs := by
        cases sd
        · simp only [true_and] at hne hge; omega
        · exact .inl rfl
      exact exec_pkt_split ho htoc hnfv hslow

/-- Settles O23: only the split path answers SPLIT, and it leaves the registers, so the command answers the same again. -/
theorem splitIsAPureQuery : Obligations.SplitIsAPureQuery := by
  refine ⟨fun sd s t q h hq hsplit => ?_, fun sd s ho htoc hnfv hlong => ?_,
    fun s hrange ho htoc hnfv hzero => ?_⟩
  · have hregs : t.regs = s.regs := (exec_responds h hq).of_split hsplit
    exact ⟨hregs, exec_again h hregs⟩
  · rw [← Regs.totalUs_eq] at hlong
    exact exec_pkt_split ho htoc hnfv (hlong.imp_right fun hlt => by omega)
  · have hacc := hrange.1 ho
    have htotal : s.regs.totalUs = 0 := by simp [Regs.totalUs, hzero]
    rw [exec_pkt_append ho htoc hnfv (by omega), htotal, Nat.add_zero, ← acc_ofNat_setWidth (by omega),
      BitVec.ofNat_toNat, BitVec.setWidth_eq]
    rfl

/-- Settles O24, by the sum's place at the budget. -/
theorem frmAccumulatesFrame : Obligations.FrmAccumulatesFrame := by
  simp only [Obligations.FrmAccumulatesFrame, ← Regs.frameUs_eq]
  refine ⟨by decide, fun s => exec_gated_of_over rfl, fun s => exec_frm_of_noToc, fun s => exec_frm_append,
    fun s => exec_frm_emit, fun s ho htoc hsum hrange => ?_⟩
  have hle := hrange.frm_sum_le ho
  rw [exec_frm_overshoot ho htoc hsum, acc_ofNat_setWidth (by omega)]

/-- Settles O25: the overshoot stores the sum, and the fatal state keeps it through every run without a reset. -/
theorem overshootValueIsTheSum : Obligations.OvershootValueIsTheSum := by
  intro s t q hrange h hq hstatus
  have hr := exec_responds h hq
  obtain ⟨hdata, hbounds⟩ := hr.overshootData hstatus
  obtain ⟨hlow, hhigh⟩ := hbounds hrange
  obtain ⟨ho, hregs, hev⟩ := hr.of_overshoot hstatus
  have hle := hrange.frm_sum_le ho
  have hacc : t.regs.acc.toNat = s.regs.acc.toNat + s.regs.frameUs := by
    rw [hregs]
    exact acc_ofNat (by omega)
  refine ⟨by rw [hacc, Regs.frameUs_eq], hdata ▸ hlow, hdata ▸ hhigh, hdata, fun n u hmoves hrun => ?_⟩
  have hover : t.regs.overFlag = true := by rw [hregs]
  obtain ⟨-, hkept, -⟩ := overshotIsFatal n t u hover (by simp [hq, hev]) hmoves hrun
  have hread : u.regs.acc.setWidth 32 = q.data := by
    apply BitVec.eq_of_toNat_eq
    rw [acc_setWidth, hkept, hdata]
  rw [exec_rd_acc, hread]

/-- Settles O27, by induction on the number of frames: the first is added, the others to the sum it leaves. -/
theorem frmRunAddsUp : Obligations.FrmRunAddsUp := by
  intro n
  induction n with
  | zero =>
    intro r rest q _ _ _
    refine ⟨_, rfl, rfl, ?_⟩
    simp [portState]
  | succ n ih =>
    intro r rest q ho htoc hsum
    rw [Nat.succ_mul] at hsum
    have hfirst : r.acc.toNat + tableUs r.toc < 60000 := by omega
    have hstored := acc_ofNat (n := r.acc.toNat + tableUs r.toc) (by omega)
    have hstep := step_frmWord (List.replicate n 0x6000#16) rest q ho htoc (by rwa [Regs.frameUs_eq])
    rw [Regs.frameUs_eq] at hstep
    rw [List.replicate_succ, runSteps_succ hstep]
    obtain ⟨t, hrun, hpending, hregs⟩ :=
      ih { r with acc := BitVec.ofNat 17 (r.acc.toNat + tableUs r.toc) } rest _ ho htoc (by simp only [hstored]; omega)
    refine ⟨t, hrun, hpending, hregs.trans ?_⟩
    simp only [hstored, Nat.succ_mul, Nat.add_assoc, Nat.add_comm (tableUs r.toc)]

/-- Settles O28, row by row of the table: each condition names the command's outcome, and the flush state is read off the
registers it leaves. -/
theorem flushTransitions : Obligations.FlushTransitions := by
  refine ⟨fun i s t q hrange _ h hq => ⟨?_, ?_, ?_, ?_, ?_, ?_, ?_⟩, fun s w rest e hp hd => ?_, fun s rest hp => ?_⟩
  · -- `PKT 0`
    rintro ho htoc hnfv rfl
    have outcome {r st ev d} (hx : exec (.pkt false) s = s.answer r st ev d) := State.answer_rsp (hx.symm.trans h) hq
    refine ⟨fun hsum => ?_, fun hpos hsum => ?_, fun hsum => ?_, fun hsum => ?_⟩
    · obtain ⟨rfl, rfl⟩ := outcome (exec_pkt_append ho htoc hnfv (by omega))
      exact ⟨Regs.flushState_empty ho (by rw [hsum]; rfl), rfl⟩
    · obtain ⟨rfl, rfl⟩ := outcome (exec_pkt_append ho htoc hnfv hsum)
      have hacc := acc_ofNat (n := s.regs.acc.toNat + s.regs.totalUs) (by omega)
      exact ⟨Regs.flushState_stored_filling ho hpos hsum, hacc, rfl⟩
    · obtain ⟨rfl, rfl⟩ := outcome (exec_pkt_emit ho htoc hnfv hsum)
      exact ⟨Regs.flushState_empty ho rfl, rfl, rfl⟩
    · obtain ⟨rfl, rfl⟩ := outcome (exec_pkt_split ho htoc hnfv (.inr hsum))
      exact ⟨rfl, rfl⟩
  · -- `PKT 1`
    rintro ho htoc hnfv rfl
    obtain ⟨rfl, rfl⟩ := State.answer_rsp ((exec_pkt_split ho htoc hnfv (.inl rfl)).symm.trans h) hq
    exact ⟨rfl, rfl⟩
  · -- `FRM`
    rintro ho htoc rfl
    have outcome {r st ev d} (hx : exec .frm s = s.answer r st ev d) := State.answer_rsp (hx.symm.trans h) hq
    have hrange' := hrange.1 ho
    obtain ⟨hframe, hframe', -⟩ := s.regs.frameUs_bounds
    have hacc := acc_ofNat (n := s.regs.acc.toNat + s.regs.frameUs) (by omega)
    refine ⟨fun hsum => ?_, fun hsum => ?_, fun hsum => ?_⟩
    · obtain ⟨rfl, rfl⟩ := outcome (exec_frm_append ho htoc hsum)
      exact ⟨Regs.flushState_stored_filling ho (by omega) hsum, hacc, rfl⟩
    · obtain ⟨rfl, rfl⟩ := outcome (exec_frm_emit ho htoc hsum)
      exact ⟨Regs.flushState_empty ho rfl, rfl, rfl⟩
    · obtain ⟨rfl, rfl⟩ := outcome (exec_frm_overshoot ho htoc hsum)
      exact ⟨Regs.flushState_filling ho (by omega) hrange', Regs.flushState_overshot rfl, hacc, rfl, rfl⟩
  · -- `ACC_CLR`
    rintro ho rfl
    obtain ⟨rfl, rfl⟩ := State.answer_rsp ((exec_accClr_of_not_over ho).symm.trans h) hq
    exact ⟨Regs.flushState_empty ho rfl, rfl, rfl⟩
  · -- the gated commands in OVERSHOT
    intro ho hgated
    obtain ⟨rfl, rfl⟩ := State.answer_rsp ((exec_gated_of_over hgated ho).symm.trans h) hq
    exact ⟨rfl, rfl, rfl⟩
  · -- `SRST`
    rintro rfl
    obtain ⟨rfl, rfl⟩ := State.answer_rsp h hq
    exact ⟨rfl, rfl, rfl⟩
  · -- the commands not listed, and the faulting ones
    intro hi
    obtain ⟨hacc, hover, hev⟩ := (exec_responds h hq).undisturbed hi
    exact ⟨Regs.flushState_congr hover hacc, hacc, hev⟩
  · -- an illegal word
    exact ⟨_, step_illegal hp hd, rfl, rfl⟩
  · -- hard reset
    exact ⟨_, step_reset hp, rfl, rfl⟩

/-- Settles O47: the durations are on the grid. -/
theorem accStaysOnGrid : Obligations.AccStaysOnGrid :=
  ⟨by decide, fun _ _ hs h =>
    step_keeps (P := Regs.AccOnGrid) (by decide) (fun _ => id) (fun _ _ _ _ hr => hr.keeps_accOnGrid) hs h⟩

/-- Settles O48: an illegal word emits nothing, and a command emits at the budget. -/
theorem emitOnlyAtExactBudget : Obligations.EmitOnlyAtExactBudget := by
  intro s t w rest q hp h hq hemit
  rw [← Regs.totalUs_eq, ← Regs.frameUs_eq]
  obtain ⟨i, hd, hr⟩ | ⟨e, -, -, rfl⟩ := step_responds hp h hq
  · obtain ⟨hacc, hsum⟩ := hr.emit hemit
    refine ⟨hacc, ?_⟩
    rwa [hd, Decoded.command.injEq, Decoded.command.injEq]
  · cases hemit

/-- Settles O51: an illegal word sets ILL alone; a command is judged by its outcome. -/
theorem accumulatorIsUndisturbed : Obligations.AccumulatorIsUndisturbed := by
  intro s t w rest q hp h hq
  obtain ⟨i, hd, hr⟩ | ⟨e, -, hregs, -⟩ := step_responds hp h hq
  · refine ⟨fun ho ho' => ?_, fun hi => ?_, fun hst => ?_⟩
    · rw [hd, hr.frm_of_over_rises ho ho']
    · obtain ⟨hacc, hover, -⟩ := hr.undisturbed (.inl (hi i hd))
      exact ⟨hacc, hover⟩
    · have hfault : q.status ≠ .ok ∧ q.status ≠ .overshoot := by rcases hst with hst | hst <;> simp [hst]
      obtain ⟨hacc, hover, -⟩ := hr.undisturbed (.inr hfault)
      exact ⟨hacc, hover⟩
  · rw [hregs]
    exact ⟨fun ho ho' => absurd ho' (ne_true_of_eq_false ho), fun _ => ⟨rfl, rfl⟩, fun _ => ⟨rfl, rfl⟩⟩

/-- Settles O26. -/
theorem accClrAbandonsUnit : Obligations.AccClrAbandonsUnit :=
  ⟨by decide, fun _ => exec_gated_of_over rfl, fun _ => exec_accClr_of_not_over⟩

/-- Settles O45: at reset `ACC` is 0, there is no count, and the host has appended and emitted nothing. -/
theorem resetMeetsInvariant : Obligations.ResetMeetsInvariant :=
  ⟨⟨by decide, by decide⟩, by decide, fun _ => rfl, fun _ hu => absurd hu List.not_mem_nil⟩

end Sys2Proof.Proofs
end

section
/-! SUPPORT. The system commands: the words of `RD`, its reads as numbers, the registers that set every other command
apart from `NOP`, and a change of the flags passing through a command. -/

namespace Sys2Proof

/-- The word of `RD`, its index in `cmd[11:8]` (30_encoding.md R74). -/
theorem rdWord_eq_cmdWord (r : BitVec 4) : 0x8000#16 ||| r.setWidth 16 <<< 8 = cmdWord 8#4 r 0#8 := by
  revert r; decide

theorem decode_rdWord {r : BitVec 4} (hr : r.toNat ≤ 11) :
    decode (0x8000#16 ||| r.setWidth 16 <<< 8) = .command (.rd r) :=
  decode_eq_command_iff_encode.mpr ⟨by simpa [Instr.wf, regIndexOk] using hr, (rdWord_eq_cmdWord r).symm⟩

theorem decode_rdWord_illegal {r : BitVec 4} (hr : 12 ≤ r.toNat) :
    ∃ why, decode (0x8000#16 ||| r.setWidth 16 <<< 8) = .illegal why := by
  have hop : (cmdWord 8#4 r 0#8).toNat / 4096 = 8 := by rw [← opField_toNat, opField_cmdWord]; rfl
  have hmod : 12 ≤ (cmdWord 8#4 r 0#8).toNat / 256 % 16 := by rwa [← modField_toNat, modField_cmdWord]
  rw [rdWord_eq_cmdWord, decode_illegal_iff]
  exact .inr (.inr (.inr (.inr ⟨hop, .inr hmod⟩)))

namespace Machine

/-! ### What `RD` reads -/

theorem tocStereo_toNat (toc : Byte) : (tocStereo toc).toNat = toc.toNat / 4 % 2 :=
  Nat.toNat_testBit toc.toNat 2

/-- One flag as a data word. -/
theorem flag_setWidth (b : Bool) : (BitVec.ofBool b).setWidth 32 = BitVec.ofNat 32 b.toNat := by
  cases b <;> rfl

/-- `VBR` above `PAD` as a data word (10_state.md R30). -/
theorem fcbFlags_setWidth (vbr pad : Bool) :
    (BitVec.ofBool vbr ++ BitVec.ofBool pad).setWidth 32 = BitVec.ofNat 32 (2 * vbr.toNat + pad.toNat) := by
  cases vbr <;> cases pad <;> rfl

section Toc

variable {s : State} (htoc : s.regs.tocv = true)
include htoc

theorem exec_rd_toc : exec (.rd 2#4) s = s.answer s.regs .ok evNone (s.regs.toc.setWidth 32) :=
  exec_rd_of_read (n := .toc) rfl (if_pos htoc)

theorem exec_rd_config :
    exec (.rd 3#4) s = s.answer s.regs .ok evNone (BitVec.ofNat 32 (s.regs.toc.toNat / 8)) := by
  rw [← tocConfig_toNat, BitVec.ofNat_toNat]
  exact exec_rd_of_read (n := .config) rfl (if_pos htoc)

theorem exec_rd_stereo :
    exec (.rd 4#4) s = s.answer s.regs .ok evNone (BitVec.ofNat 32 (s.regs.toc.toNat / 4 % 2)) := by
  rw [← tocStereo_toNat, ← flag_setWidth]
  exact exec_rd_of_read (n := .stereo) rfl (if_pos htoc)

theorem exec_rd_code :
    exec (.rd 5#4) s = s.answer s.regs .ok evNone (BitVec.ofNat 32 (s.regs.toc.toNat % 4)) := by
  rw [← tocCode_toNat, BitVec.ofNat_toNat]
  exact exec_rd_of_read (n := .code) rfl (if_pos htoc)

variable (hnfv : s.regs.nfv = true)
include hnfv

theorem exec_rd_nframes : exec (.rd 8#4) s = s.answer s.regs .ok evNone (s.regs.nframes.setWidth 32) :=
  exec_rd_of_read (n := .nframes) rfl (if_pos (Bool.and_eq_true_iff.mpr ⟨htoc, hnfv⟩))

theorem exec_rd_totalUs :
    exec (.rd 10#4) s =
      s.answer s.regs .ok evNone (BitVec.ofNat 32 (s.regs.nframes.toNat * tableUs s.regs.toc)) := by
  rw [← Regs.totalUs_eq]
  exact exec_rd_of_read (n := .totalUs) rfl (if_pos (Bool.and_eq_true_iff.mpr ⟨htoc, hnfv⟩))

theorem exec_rd_fcbf (hcode : s.regs.toc.toNat % 4 = 3) :
    exec (.rd 9#4) s =
      s.answer s.regs .ok evNone (BitVec.ofNat 32 (2 * s.regs.vbr.toNat + s.regs.pad.toNat)) := by
  rw [← fcbFlags_setWidth]
  exact exec_rd_of_read (n := .fcbf) rfl (if_pos (s.regs.hasFcb_iff.mpr ⟨htoc, hnfv, hcode⟩))

end Toc

/-! ### Registers on which only `NOP` is silent -/

/-- Registers on which every command but `NOP` shows: the accumulator is gated, what reads without a TOC is not zero, and
nothing else reads. -/
def Regs.Telling (r : Regs) : Prop :=
  r.overFlag = true ∧ r.tocv = false ∧ r.crc ≠ 0#32 ∧ r.acc ≠ 0#17

/-- No register reads as zero there. -/
theorem Regs.Telling.read_ne_zero {r : Regs} (hr : r.Telling) (n : RegName) : r.read n ≠ some 0#32 := by
  obtain ⟨ho, htoc, hcrc, hacc⟩ := hr
  cases n with
  | status =>
    intro h
    have hbit : r.statusWord.getLsbD 0 = r.overFlag := r.statusWord_getLsbD 0
    rw [Option.some.inj h, ho] at hbit
    cases hbit
  | crc => simpa [Regs.read] using hcrc
  | acc =>
    intro h
    have hzero : r.acc.toNat = 0 := (acc_setWidth r.acc).symm.trans (congrArg BitVec.toNat (Option.some.inj h))
    exact hacc (BitVec.eq_of_toNat_eq hzero)
  | _ => simp [Regs.read, Regs.hasToc, Regs.hasCount, Regs.hasFcb, htoc]

/-- There, a command that leaves the registers and responds (OK, 0, 0) is `NOP`. -/
theorem Responds.nop_of_silent {r r' : Regs} {i : Instr} {q : Response} (h : Responds r i r' q) (hr : r.Telling)
    (hregs : r' = r) (hq : q = ⟨.ok, evNone, 0#32⟩) : i = .nop := by
  obtain ⟨ho, htoc, hcrc, -⟩ := id hr
  cases h with
  | nop => rfl
  | crcInit => exact absurd (congrArg Regs.crc hregs).symm hcrc
  | crcByte b =>
    have hsame : crcUpdate r.crc b = r.crc := congrArg Regs.crc hregs
    exact absurd (hsame.symm.trans (congrArg Response.data hq)) hcrc
  | tocLd b => exact absurd (congrArg Regs.tocv hregs).symm (by simp [htoc])
  | fcbLd f hfcb => exact absurd (r.wantsFcb_iff.mp hfcb).1 (by simp [htoc])
  | pktEmit ho' | pktAppend ho' | pktSplit _ ho' | frmAppend ho' | frmEmit ho' | accClr ho' =>
    exact absurd ho (ne_true_of_eq_false ho')
  | rd hreg hread => exact absurd (hread.trans (congrArg (some ∘ Response.data) hq)) (hr.read_ne_zero _)
  | srst => exact absurd ((congrArg Regs.overFlag hregs).trans ho) (by decide)
  | overshoot | faulted | seq | noRegister => cases hq

/-! ### A change of the flags -/

/-- Two answers to the command `i` that differ in the flags alone: one response (but for the data of `RD 0`, which is the
flags), and the same registers but for the flags (43_system.md R154). -/
def SameButFlags (i : Instr) (x x' : Result) : Prop :=
  ∃ t t' a a', x = .next t ∧ t.rsp = some a ∧ x' = .next t' ∧ t'.rsp = some a' ∧
    a'.status = a.status ∧ a'.ev = a.ev ∧ (i ≠ .rd 0#4 → a'.data = a.data) ∧
    t'.regs = { t.regs with overFlag := t'.regs.overFlag, illFlag := t'.regs.illFlag, seqFlag := t'.regs.seqFlag }

/-- Answers that differ in the flags alone; their data are the same by computation unless said otherwise. -/
theorem SameButFlags.answer {s s' : State} {i : Instr} {r r' : Regs} {st : Status} {ev : Events} {d d' : DataWord}
    (hregs : r' = { r with overFlag := r'.overFlag, illFlag := r'.illFlag, seqFlag := r'.seqFlag })
    (hdata : i ≠ .rd 0#4 → d' = d := by exact fun _ => rfl) :
    SameButFlags i (s.answer r st ev d) (s'.answer r' st ev d') :=
  ⟨_, _, _, _, rfl, rfl, rfl, rfl, rfl, rfl, hdata, hregs⟩

/-- Two branchings on one condition, related branch by branch. -/
theorem SameButFlags.ite {i : Instr} {p : Prop} [Decidable p] {x y x' y' : Result} (hx : SameButFlags i x x')
    (hy : SameButFlags i y y') : SameButFlags i (if p then x else y) (if p then x' else y') := by
  split
  · exact hx
  · exact hy

theorem regNameOf_eq_status (k : BitVec 4) : regNameOf k = some .status ↔ k = 0#4 := by
  revert k; decide

/-- Every register but `STATUS` reads the same whatever the flags. -/
theorem Regs.read_with_flags {n : RegName} (hn : n ≠ .status) (r : Regs) (o l q : Bool) :
    Regs.read { r with overFlag := o, illFlag := l, seqFlag := q } n = r.read n := by
  cases n with
  | status => exact absurd rfl hn
  | _ => rfl

/-- `OVER` decides for the gated commands alone, ILL and SEQ for none (43_system.md R154). -/
theorem exec_sameButFlags {i : Instr} {s : State} {o : Bool} (l q : Bool)
    (ho : i.gated = false ∨ o = s.regs.overFlag) :
    SameButFlags i (exec i s)
      (exec i { s with regs := { s.regs with overFlag := o, illFlag := l, seqFlag := q } }) := by
  have hover (hgated : i.gated = true) : o = s.regs.overFlag := ho.resolve_left (ne_false_of_eq_true hgated)
  cases i with
  | nop | srst => exact .answer rfl
  | crcInit => rw [exec_crcInit, exec_crcInit]; exact .answer rfl
  | crcByte b => rw [exec_crcByte, exec_crcByte]; exact .answer rfl
  | tocLd b => rw [exec_tocLd, exec_tocLd]; exact .answer rfl
  | fcbLd f =>
    rw [exec_fcbLd, exec_fcbLd]
    exact .ite (.answer rfl) (.answer rfl)
  | accClr =>
    obtain rfl := hover rfl
    rw [exec_accClr, exec_accClr]
    exact .ite (.answer rfl) (.answer rfl)
  | pkt sd =>
    obtain rfl := hover rfl
    rw [exec_pkt, exec_pkt]
    exact .ite (.answer rfl) (.ite (.ite (.ite (.answer rfl) (.answer rfl)) (.answer rfl)) (.answer rfl))
  | frm =>
    obtain rfl := hover rfl
    rw [exec_frm, exec_frm]
    exact .ite (.answer rfl) (.ite (.ite (.answer rfl) (.ite (.answer rfl) (.answer rfl))) (.answer rfl))
  | rd k =>
    rw [exec_rd, exec_rd]
    rcases hk : regNameOf k with _ | n
    · exact .answer rfl
    by_cases hn : n = .status
    · subst hn
      have hzero : Instr.rd k = .rd 0#4 := congrArg Instr.rd ((regNameOf_eq_status k).mp hk)
      exact .answer rfl fun hne => absurd hzero hne
    · simp only [Regs.read_with_flags hn]
      rcases s.regs.read n with _ | v
      · exact .answer rfl
      · exact .answer rfl

end Machine
end Sys2Proof
end

section
/-! PROOFS. The family 43_system.md: `NOP`, `RD`, `SRST`, and what the flags gate. -/

namespace Sys2Proof.Proofs

open Sys2Proof.Machine

/-- Settles O30: each register that holds a value is read by its own lemma, and an unmet need is SEQ. -/
theorem rdReadsRegister : Obligations.RdReadsRegister := by
  refine ⟨fun _ => decode_rdWord, fun _ => decode_rdWord_illegal, exec_rd_status, exec_rd_crc, exec_rd_acc, ?toc, ?count,
    ?seq⟩
  case toc =>
    exact fun s htoc => ⟨exec_rd_toc htoc, exec_rd_config htoc, exec_rd_stereo htoc, exec_rd_code htoc,
      exec_rd_toc1 htoc, exec_rd_frameUs htoc⟩
  case count =>
    exact fun s htoc hnfv => ⟨exec_rd_nframes htoc hnfv, exec_rd_totalUs htoc hnfv, exec_rd_fcbf htoc hnfv⟩
  case seq => exact fun k s hk => exec_rd_of_not_needsMet (by simpa [regIndexOk] using hk)

/-- Settles O29: with OVER set, CRC and ACC 1 and no TOC loaded, a command that is silent there is `NOP`. -/
theorem nopAloneIsSilent : Obligations.NopAloneIsSilent := by
  refine ⟨by decide, exec_nop, by decide, fun i h => ?_⟩
  have htelling : Regs.Telling { Regs.reset with overFlag := true, crc := 1#32, acc := 1#17 } :=
    ⟨rfl, rfl, by decide, by decide⟩
  exact (exec_responds (h ⟨_, [], none⟩) rfl).nop_of_silent htelling rfl rfl

/-- Settles O34: the gate by the gated commands' rule, and a change of any other flag passes through every command. -/
theorem overGatesTheAccumulatorAlone : Obligations.OverGatesTheAccumulatorAlone :=
  ⟨fun _ _ => exec_gated_of_over, fun _ _ _ l q => exec_sameButFlags l q⟩

/-- Settles O33: only the effect of `SRST` clears a flag. -/
theorem srstAloneClearsFlags : Obligations.SrstAloneClearsFlags :=
  ⟨by decide, exec_srst, fun _ _ _ hi h => (exec_leaves h).2.keeps_flags hi⟩

end Sys2Proof.Proofs
end

section
/-! SUPPORT. The faults: what each status says of the command and of the registers it found and left, and the one order
of checks that decides the status (60_exceptions.md sections 1 to 4). -/

namespace Sys2Proof.Machine

/-! ### The effect of each fault -/

section Responds

variable {i : Instr} {r r' : Regs} {q : Response} (h : Responds r i r' q)
include h

theorem Responds.of_illegal (hst : q.status = .illegal) : r' = { r with illFlag := true } := by
  cases h with
  | noRegister => rfl
  | _ => cases hst

theorem Responds.of_seq (hst : q.status = .seq) :
    i.needsMet r = false ∧ r' = { r with seqFlag := true } ∧ q = ⟨.seq, evNone, 0#32⟩ := by
  cases h with
  | seq _ hneeds => exact ⟨hneeds, rfl, rfl⟩
  | _ => cases hst

theorem Responds.of_faulted (hst : q.status = .faulted) : i.gated = true ∧ r.overFlag = true ∧ r' = r := by
  cases h with
  | faulted hgated ho => exact ⟨hgated, ho, rfl⟩
  | _ => cases hst

/-- An overshoot is `FRM`'s, its sum above the budget, and reports the `ACC` it leaves (60_exceptions.md R165,
30_encoding.md R83). -/
theorem Responds.cause_of_overshoot (hst : q.status = .overshoot) :
    i = .frm ∧ 60000 < r.acc.toNat + tableUs r.toc ∧ q.data = r'.acc.setWidth 32 := by
  rw [← Regs.frameUs_eq]
  cases h with
  | overshoot _ _ hsum => exact ⟨rfl, hsum, rfl⟩
  | _ => cases hst

/-- `OVER` rises with an overshoot alone (60_exceptions.md R168). -/
theorem Responds.overshoot_of_over_rises (ho : r.overFlag = false) (ho' : r'.overFlag = true) :
    q.status = .overshoot := by
  cases h with
  | overshoot => rfl
  | srst => cases ho'
  | _ => exact absurd ho' (ne_true_of_eq_false ho)

theorem Responds.evNone_of_fault (hst : q.status ≠ .ok) : q.ev = evNone :=
  by_contra fun hev => hst (h.events.2 hev).1

end Responds

/-! ### The order of the checks -/

/-- The status a well-formed command is due on the registers `r`: the gate, then the needs, then the budget
(60_exceptions.md R169). -/
def Regs.dueStatus (r : Regs) (i : Instr) : Status :=
  if i.gated = true ∧ r.overFlag = true then .faulted
  else if i.needsMet r = false then .seq
  else if i = .frm ∧ 60000 < r.acc.toNat + tableUs r.toc then .overshoot
  else .ok

section DueStatus

variable {r : Regs} {i : Instr}

theorem Regs.dueStatus_of_over (hgated : i.gated = true) (ho : r.overFlag = true) : r.dueStatus i = .faulted :=
  if_pos ⟨hgated, ho⟩

variable (ho : i.gated = true → r.overFlag = false)
include ho

theorem Regs.dueStatus_of_unmet (hneeds : i.needsMet r = false) : r.dueStatus i = .seq := by
  rw [Regs.dueStatus, if_neg fun hover => ne_true_of_eq_false (ho hover.1) hover.2, if_pos hneeds]

theorem Regs.dueStatus_ok (hneeds : i.needsMet r = true) (hi : i ≠ .frm) : r.dueStatus i = .ok := by
  rw [Regs.dueStatus, if_neg fun hover => ne_true_of_eq_false (ho hover.1) hover.2,
    if_neg (ne_false_of_eq_true hneeds), if_neg fun hover => hi hover.1]

end DueStatus

/-- With a TOC loaded and `OVER` 0, the sum decides for `FRM`. -/
theorem Regs.dueStatus_frm {r : Regs} (ho : r.overFlag = false) (htoc : r.tocv = true) :
    r.dueStatus .frm = if 60000 < r.acc.toNat + r.frameUs then .overshoot else .ok := by
  rw [Regs.frameUs_eq]
  simp [Regs.dueStatus, Instr.needsMet, ho, htoc]

/-- A well-formed command responds the status it is due. -/
theorem Responds.status_eq_due {i : Instr} {r r' : Regs} {q : Response} (h : Responds r i r' q) (hwf : i.wf = true) :
    q.status = r.dueStatus i := by
  symm
  cases h with
  | nop | crcInit | crcByte | tocLd | srst => rfl
  | accClr ho => exact Regs.dueStatus_ok (fun _ => ho) rfl (by decide)
  | fcbLd f hfcb =>
    have hneeds : (Instr.fcbLd f).needsMet r = true := by
      simpa [Instr.needsMet] using r.wantsFcb_iff.mp hfcb
    exact Regs.dueStatus_ok nofun hneeds nofun
  | pktEmit ho hcount | pktAppend ho hcount | pktSplit _ ho hcount =>
    exact Regs.dueStatus_ok (fun _ => ho) hcount nofun
  | frmAppend ho htoc hsum | frmEmit ho htoc hsum =>
    rw [Regs.dueStatus_frm ho htoc, if_neg (by omega)]
  | overshoot ho htoc hsum => rw [Regs.dueStatus_frm ho htoc, if_pos hsum]
  | rd hreg hread =>
    have hunmet := Regs.read_eq_none_iff_needsMet hreg r
    exact Regs.dueStatus_ok nofun (by simpa [hread] using hunmet) nofun
  | faulted hgated ho => exact Regs.dueStatus_of_over hgated ho
  | seq ho hneeds => exact Regs.dueStatus_of_unmet ho hneeds
  | noRegister hrd => exact absurd hwf (ne_true_of_eq_false hrd)

/-- What a command does in full: one of its outcomes, the later moves as they were. -/
theorem exec_answers_responds (i : Instr) (s : State) :
    ∃ r q, exec i s = s.answer r q.status q.ev q.data ∧ Responds s.regs i r q := by
  obtain ⟨r, st, ev, d, hx⟩ := exec_answers i s.regs
  exact ⟨r, ⟨st, ev, d⟩, hx s rfl, exec_responds (hx s rfl) rfl⟩

/-- A command with an unmet need that `OVER` does not gate raises SEQ (60_exceptions.md R163). -/
theorem exec_of_unmet {i : Instr} {s : State} (hwf : i.wf = true) (ho : i.gated = true → s.regs.overFlag = false)
    (hneeds : i.needsMet s.regs = false) :
    exec i s = s.answer { s.regs with seqFlag := true } .seq evNone 0#32 := by
  obtain ⟨r, q, hx, hr⟩ := exec_answers_responds i s
  obtain ⟨-, rfl, rfl⟩ := hr.of_seq ((hr.status_eq_due hwf).trans (Regs.dueStatus_of_unmet ho hneeds))
  exact hx

/-- Every state has a next one (60_exceptions.md R160). -/
theorem step_total (s : State) : ∃ t, step s = .next t := by
  rcases hp : s.pending with _ | ⟨_ | _, rest⟩
  · exact ⟨s, step_idle hp⟩
  · obtain ⟨r, st, ev, d, h⟩ := step_command hp
    exact ⟨_, h⟩
  · exact ⟨_, step_reset hp⟩

end Sys2Proof.Machine
end

section
/-! PROOFS. The family 60_exceptions.md: the four faults, their order, and the fault line. -/

namespace Sys2Proof.Proofs

open Sys2Proof.Machine

/-- Settles O4: whatever stands on the port, its own law gives the next state. -/
theorem everyStepGoesOn : Obligations.EveryStepGoesOn := by
  refine ⟨step_total, fun s w rest hp => ?_⟩
  obtain ⟨r, st, ev, d, h⟩ := step_command hp
  exact ⟨_, _, h, rfl, rfl⟩

/-- Settles O35: the gated commands by one law, and the only outcome with this status is the gate's. -/
theorem faultedChangesNothing : Obligations.FaultedChangesNothing := by
  refine ⟨fun s ho => ?_, fun i s t q _ h hq hst => ?_, by decide⟩
  · exact ⟨fun _ => exec_gated_of_over rfl ho, exec_gated_of_over rfl ho, exec_gated_of_over rfl ho⟩
  · obtain ⟨hgated, ho, -⟩ := (exec_responds h hq).of_faulted hst
    exact ⟨ho, hgated⟩

/-- Settles O36: an unmet need raises SEQ, and only an unmet need does. -/
theorem seqRaisedWhenNoValue : Obligations.SeqRaisedWhenNoValue := by
  intro i s hwf ho
  refine ⟨⟨fun hneeds => ⟨_, _, exec_of_unmet hwf ho hneeds, rfl, rfl⟩, ?_⟩, exec_of_unmet hwf ho⟩
  rintro ⟨t, q, h, hq, hst⟩
  exact ((exec_responds h hq).of_seq hst).1

/-- Settles O37: an illegal word is decided first, and a word that decodes is a well-formed command, which responds the
status it is due. -/
theorem statusFollowsPriority : Obligations.StatusFollowsPriority := by
  intro s w rest hp
  obtain ⟨r, st, ev, d, h⟩ := step_command hp
  refine ⟨_, ⟨st, ev, d⟩, h, rfl, ?_⟩
  obtain ⟨i, hd, hr⟩ | ⟨e, hd, -, hq⟩ := step_responds hp h rfl
  · rw [hd]
    exact hr.status_eq_due (decode_eq_command_iff.mp hd).1
  · rw [hd]
    exact congrArg Response.status hq

/-- Settles O38: the effect of each fault, read off the command's outcome; an illegal word sets ILL alone. -/
theorem faultsArePrecise : Obligations.FaultsArePrecise := by
  intro s t w rest q hp h hq hfault
  have hpending : t.pending = rest := by rw [step_pending h, hp, List.tail_cons]
  obtain ⟨i, hd, hr⟩ | ⟨e, -, hregs, rfl⟩ := step_responds hp h hq
  · refine ⟨hpending, hr.evNone_of_fault hfault, fun hst => ?ill, fun hst => ?seq, fun hst => ?faulted,
      fun hst => ?overshoot⟩
    case ill => exact ⟨hr.of_illegal hst, hr.faultData (.inl hst)⟩
    case seq =>
      obtain ⟨-, hregs, rfl⟩ := hr.of_seq hst
      exact ⟨hregs, rfl⟩
    case faulted =>
      obtain ⟨-, ho, hregs⟩ := hr.of_faulted hst
      exact ⟨hregs, ho, hr.faultData (.inr (.inr hst))⟩
    case overshoot =>
      obtain ⟨rfl, hsum, hdata⟩ := hr.cause_of_overshoot hst
      obtain ⟨-, hregs, -⟩ := hr.of_overshoot hst
      rw [Regs.frameUs_eq] at hregs
      exact ⟨hd, hsum, hregs, hdata⟩
  · exact ⟨hpending, rfl, fun _ => ⟨hregs, rfl⟩, nofun, nofun, nofun⟩

/-- Settles O44: `OVER` rises in a command's outcome alone, and the stickiness of the flags says where it falls. -/
theorem faultLineFollowsOver : Obligations.FaultLineFollowsOver := by
  refine ⟨fun _ => rfl, fun s t h ho ho' => ?rises, fun s t h ho ho' => ?falls⟩
  case rises =>
    obtain ⟨-, rfl⟩ | ⟨rest, -, rfl⟩ | ⟨w, rest, e, -, -, rfl⟩ | ⟨w, rest, i, -, -, hx⟩ := step_cases h
    · exact absurd ho' (ne_true_of_eq_false ho)
    · cases ho'
    · exact absurd ho' (ne_true_of_eq_false ho)
    · obtain ⟨q, hq, hr⟩ := exec_next_responds hx
      exact ⟨q, hq, hr.overshoot_of_over_rises ho ho'⟩
  case falls =>
    by_contra hno
    have hmove (m rest) (hp : s.pending = m :: rest) : m.resets = false :=
      eq_false_of_ne_true fun hm => hno ⟨m, rest, hp, hm⟩
    obtain ⟨hsticky, -⟩ := flagsAreSticky s t h hmove
    exact ne_true_of_eq_false ho' (hsticky ho)

/-- Settles O3. -/
theorem illegalWordRaisesIllegal : Obligations.IllegalWordRaisesIllegal :=
  ⟨fun _ _ _ _ => step_illegal, by decide⟩

end Sys2Proof.Proofs
end

section
/-! PROOFS. The family 'other': the sample words of the encoding. -/

namespace Sys2Proof.Proofs

/-- Settles O10: each of the legal words is its command's encoding, so the round trip decodes it; the illegal ones are
evaluated. -/
theorem sampleWordsDecode : Obligations.SampleWordsDecode := by
  have word {w : CmdWord} (i : Instr) (hwf : i.wf = true) (hw : encode i = w) : decode w = .command i :=
    hw ▸ decodeOfEncode i hwf
  refine ⟨word .nop rfl rfl, word .crcInit rfl rfl, word (.crcByte 0x4F) rfl rfl, word (.tocLd 0x0B) rfl rfl,
    word (.fcbLd 0x83) rfl rfl, word (.pkt false) rfl rfl, word (.pkt true) rfl rfl, word .frm rfl rfl,
    word .accClr rfl rfl, word (.rd 11) rfl rfl, word .srst rfl rfl, ?noSuchRegister, ?reservedBits, ?noSuchOpcode⟩
  case noSuchRegister | reservedBits | noSuchOpcode => decide

end Sys2Proof.Proofs
end
